-- ==== Sys2Proof/Word.lean ====
section
/-! DEFINITION. The word and byte types (00_scope.md section 5: `u32` and `u8`). -/

namespace Sys2Proof

/-- `u32`: the width of every register (R16) and of a state word (R74). -/
abbrev Word := BitVec 32

/-- `u8`: one byte of the buffer memory (R44). -/
abbrev Byte := BitVec 8

end Sys2Proof
end

