-- ==== Sys2Proof/Syntax.lean ====
section
/-! DEFINITION. The commands: one constructor for each row of spec/opcode_table.json (R69). -/

namespace Sys2Proof

/-- The 13 commands of R69. Only QROUND has operand fields: four indices of state words (R68). -/
inductive Instr where
  /-- `INIT` (R83) -/
  | init
  /-- `QROUND QA, QB, QC, QD` (R84) -/
  | qround (qa qb qc qd : Fin 16)
  /-- `DROUND` (R85) -/
  | dround
  /-- `PERMUTE` (R86) -/
  | permute
  /-- `BLOCK` (R90) -/
  | block
  /-- `XOR` (R91) -/
  | xor
  /-- `MAC_INIT` (R98) -/
  | macInit
  /-- `MAC_UPDATE` (R99) -/
  | macUpdate
  /-- `MAC_FINAL` (R100) -/
  | macFinal
  /-- `MAC` (R101) -/
  | mac
  /-- `KEYGEN` (R109) -/
  | keygen
  /-- `SEAL` (R110) -/
  | aeadSeal
  /-- `OPEN` (R111) -/
  | aeadOpen
deriving DecidableEq, Repr

end Sys2Proof
end

