-- ==== Sys2Proof/WellFormed.lean ====
section
/-! DEFINITION. Which commands are well formed: the operand condition the opcode table notes for QROUND. -/

namespace Sys2Proof

/-- The four indices are pairwise distinct (R84; the note of QROUND's row in spec/opcode_table.json). -/
def pairwiseDistinct (a b c d : Fin 16) : Bool :=
  a != b && a != c && a != d && b != c && b != d && c != d

/-- A command is well formed when its fields meet the operand condition of its row. The fields' width (four bits, R68) is
in their type. An ill-formed QROUND still decodes, and completes with `E_ALIAS` (R84). -/
def Instr.wellFormed : Instr → Bool
  | .init => true
  | .qround a b c d => pairwiseDistinct a b c d
  | .dround => true
  | .permute => true
  | .block => true
  | .xor => true
  | .macInit => true
  | .macUpdate => true
  | .macFinal => true
  | .mac => true
  | .keygen => true
  | .aeadSeal => true
  | .aeadOpen => true

end Sys2Proof
end

