-- ==== Sys2Proof/Decode.lean ====
section
/-! DEFINITION. Decoding a command word (R67 to R71) and encoding a command (R69). -/

namespace Sys2Proof

/-- Why a command word is no command (R70). -/
inductive DecodeError where
  /-- the OPCODE is not in R69's table: `E_OPCODE` -/
  | opcode
  /-- a reserved bit is 1: `E_RSVD` -/
  | rsvd
deriving DecidableEq, Repr

/-- The field `OPCODE`, bits 7:0 (R67). -/
def opcodeField (w : Word) : BitVec 8 := w.extractLsb' 0 8

/-- A four-bit index field of a QROUND word whose lowest bit is `lo` (R67, R68). -/
def indexField (w : Word) (lo : Nat) : Fin 16 := (w.extractLsb' lo 4).toFin

/-- The command an OPCODE selects, its fields read from the word, before reserved bits are looked at (R69). -/
def selectCommand (w : Word) : Option Instr :=
  match (opcodeField w).toNat with
  | 0x01 => some .init
  | 0x02 => some (.qround (indexField w 8) (indexField w 12) (indexField w 16) (indexField w 20))
  | 0x03 => some .dround
  | 0x04 => some .permute
  | 0x05 => some .block
  | 0x06 => some .xor
  | 0x07 => some .macInit
  | 0x08 => some .macUpdate
  | 0x09 => some .macFinal
  | 0x0A => some .mac
  | 0x0B => some .keygen
  | 0x0C => some .aeadSeal
  | 0x0D => some .aeadOpen
  | _ => none

/-- R69's column "allowed non-zero bits", as a mask. -/
def allowedBits : Instr → Word
  | .qround _ _ _ _ => 0x00FFFFFF#32
  | .init | .dround | .permute | .block | .xor | .macInit | .macUpdate | .macFinal | .mac | .keygen | .aeadSeal
  | .aeadOpen => 0x000000FF#32

/-- No bit outside the command's allowed bits is 1 (R67, R70). -/
def reservedClear (i : Instr) (w : Word) : Bool := w &&& ~~~(allowedBits i) == 0#32

/-- The total decoder of R70: first the opcode, then the reserved bits. -/
def decode (w : Word) : Except DecodeError Instr :=
  match selectCommand w with
  | none => .error .opcode
  | some i => if reservedClear i w then .ok i else .error .rsvd

/-- An index placed in a command word with its lowest bit at `lo`. -/
def placeIndex (i : Fin 16) (lo : Nat) : Word := BitVec.ofNat 32 i.val <<< lo

/-- The encodings of R69. -/
def encode : Instr → Word
  | .init => 0x00000001#32
  | .qround a b c d =>
      0x00000002#32 ||| placeIndex a 8 ||| placeIndex b 12 ||| placeIndex c 16 ||| placeIndex d 20
  | .dround => 0x00000003#32
  | .permute => 0x00000004#32
  | .block => 0x00000005#32
  | .xor => 0x00000006#32
  | .macInit => 0x00000007#32
  | .macUpdate => 0x00000008#32
  | .macFinal => 0x00000009#32
  | .mac => 0x0000000A#32
  | .keygen => 0x0000000B#32
  | .aeadSeal => 0x0000000C#32
  | .aeadOpen => 0x0000000D#32

/-- A row of spec/opcode_table.json as its columns `mask` and `match`, for the second form of R70. -/
structure OpcodeRow where
  /-- the bits that the row fixes -/
  mask : Word
  /-- their values -/
  pattern : Word
deriving DecidableEq, Repr

/-- The row of a command in spec/opcode_table.json. -/
def opcodeRow : Instr → OpcodeRow
  | .init => ⟨0xFFFFFFFF#32, 0x00000001#32⟩
  | .qround _ _ _ _ => ⟨0xFF0000FF#32, 0x00000002#32⟩
  | .dround => ⟨0xFFFFFFFF#32, 0x00000003#32⟩
  | .permute => ⟨0xFFFFFFFF#32, 0x00000004#32⟩
  | .block => ⟨0xFFFFFFFF#32, 0x00000005#32⟩
  | .xor => ⟨0xFFFFFFFF#32, 0x00000006#32⟩
  | .macInit => ⟨0xFFFFFFFF#32, 0x00000007#32⟩
  | .macUpdate => ⟨0xFFFFFFFF#32, 0x00000008#32⟩
  | .macFinal => ⟨0xFFFFFFFF#32, 0x00000009#32⟩
  | .mac => ⟨0xFFFFFFFF#32, 0x0000000A#32⟩
  | .keygen => ⟨0xFFFFFFFF#32, 0x0000000B#32⟩
  | .aeadSeal => ⟨0xFFFFFFFF#32, 0x0000000C#32⟩
  | .aeadOpen => ⟨0xFFFFFFFF#32, 0x0000000D#32⟩

/-- The word matches the row: `w & mask = match` (R70). -/
def OpcodeRow.matchesWord (r : OpcodeRow) (w : Word) : Bool := w &&& r.mask == r.pattern

/-- The command word formed by the low `nbits` bits of `w`, the rest 0. -/
def tableWord (nbits w : Nat) : Word := BitVec.ofNat 32 (w % 2 ^ nbits)

/-- The command the decoder reads from a word numbered as spec/opcode_table.json numbers it. The only format is one
32-bit word (R67), so a longer one is none. -/
def decodeTableWord (nbits w : Nat) : Option Instr :=
  if nbits ≤ 32 then
    match decode (tableWord nbits w) with
    | .ok i => some i
    | .error _ => none
  else none

end Sys2Proof
end

