-- ==== Sys2Proof/Config.lean ====
section
/-! DEFINITION. What one implementation fixes (R6) and the values the spec leaves open. -/

namespace Sys2Proof

/-- The implementation parameters of R6. A block carries its own (State holds one and no step changes it), so a
statement about every state is a statement about every choice of them. -/
structure Config where
  /-- `BUF_BYTES`, the size of the buffer memory in bytes. -/
  bufBytes : Nat
  /-- `ID_VALUE`, what the `ID` register reads. -/
  idValue : Word
deriving DecidableEq, Repr

/-- The constraint of R6 on `BUF_BYTES`; `ID_VALUE` may be any 32-bit value. -/
def Config.ok (c : Config) : Bool :=
  c.bufBytes % 64 == 0 && decide (64 ≤ c.bufBytes) && decide (c.bufBytes ≤ 2 ^ 20)

/-- The defaults of R6 (D4, D35). -/
def Config.standard : Config := { bufBytes := 4096, idValue := 0x4C440001#32 }

/-- FREE VALUE (R135, U2; log 5): in the abort numbered `tick`, whether the output byte at buffer address `a` holds the
value the aborted command would have written (`true`) or keeps the value it had (`false`). -/
opaque Config.abortTakesNew : (tick a : Nat) → Bool

/-- FREE VALUE (R56, R135, U1; log 8): in the abort numbered `tick`, the value of the operand byte at buffer address `a`
that nothing has written since power-on. -/
opaque Config.unwrittenValue : (tick a : Nat) → Byte

/-- FREE VALUE (R142, R143, U5; log 6): the time from acceptance to completion, a function of exactly the five arguments
R143 allows: command word, `LEN`, `AADLEN`, the failing check if any, and whether OPEN's tag matched. No step reads it. -/
opaque Config.latency : (cmdWord len aadlen : Word) → (failingCheck : Option Nat) → (openMatch : Bool) → Nat

end Sys2Proof
end

