-- ==== Sys2Proof/Machine/State.lean ====
section
/-! DEFINITION. The state of the block (10_state.md), the reasons a step can stop, and the state after reset (R42). -/

namespace Sys2Proof.Machine

/-- The error codes of R112. No other value is ever written to `ERRCODE`. -/
inductive ErrCode where
  /-- `E_NONE` 0x00: success -/
  | none
  /-- `E_OPCODE` 0x01 -/
  | opcode
  /-- `E_RSVD` 0x02 -/
  | rsvd
  /-- `E_ALIAS` 0x03 -/
  | aliased
  /-- `E_MAC_STATE` 0x04 -/
  | macState
  /-- `E_RANGE` 0x05 -/
  | range
  /-- `E_OVERLAP` 0x06 -/
  | overlap
  /-- `E_COUNTER` 0x07 -/
  | counter
  /-- `E_AUTH` 0x08 -/
  | auth
deriving DecidableEq, Repr

/-- The width of a host access: 1, 2 or 4 bytes (R48). -/
inductive Width where
  /-- 1 byte -/
  | w1
  /-- 2 bytes -/
  | w2
  /-- 4 bytes -/
  | w4
deriving DecidableEq, Repr

/-- One host access to the window (R48); `off` is a window offset. A write uses the low bytes of `v` its width has. -/
inductive Access where
  /-- `HostRead(off, w)` -/
  | read (off : Nat) (w : Width)
  /-- `HostWrite(off, w, v)` -/
  | write (off : Nat) (w : Width) (v : Word)
deriving DecidableEq, Repr

/-- What reaches the block from outside, or lets its Sequencer move (R7, R59, R133; log 3). -/
inductive Input where
  /-- one host access -/
  | access (a : Access)
  /-- the host's `wait` of R73: it reads `STATUS` until `BUSY` reads 0. While a command is pending, `polls` more reads
  find `BUSY` 1 before the Sequencer takes its step (R66, U3; log 9) -/
  | waitIdle (polls : Nat)
  /-- a place in the interleaving where the Sequencer takes its step, if it has one (R65) -/
  | sequencer
  /-- power-on reset (R133) -/
  | powerOnReset
deriving DecidableEq, Repr

/-- What the bus answers a host access (R48, R49). -/
structure BusResponse where
  /-- a bus error response -/
  error : Bool
  /-- the data of a read; a write has none -/
  data : Option Word
deriving DecidableEq, Repr

/-- The buffer memory (R44): the bytes written since power-on with their buffer addresses, which strictly rise. An
address that is not listed holds no value (R56; log 1). -/
abbrev Memory := List Host.Cell

/-- The canonical form: addresses strictly rise. An unlisted address has no value, so no entry repeats one. -/
abbrev Memory.wf (m : Memory) : Prop := m.Pairwise fun x y => x.1 < y.1

/-- Everything the spec gives the block (10_state.md), and three fields of the model's own. -/
structure State where
  /-- `BUF_BYTES` and `ID_VALUE` (R6); `ID` reads the latter (R21) -/
  cfg : Config
  /-- `CTRL.IRQ_EN` (R22) -/
  irqEn : Bool
  /-- `STATUS.BUSY` (R23) -/
  busy : Bool
  /-- `STATUS.DONE` (R23) -/
  done : Bool
  /-- `STATUS.ERR` (R23) -/
  err : Bool
  /-- `STATUS.AUTH_FAIL` (R23) -/
  authFail : Bool
  /-- `STATUS.WERR` (R23) -/
  werr : Bool
  /-- `ERRCODE` (R26) -/
  errcode : ErrCode
  /-- `LEN` (R27) -/
  len : Word
  /-- `SRC` (R28) -/
  src : Word
  /-- `DST` (R29) -/
  dst : Word
  /-- `AAD` (R30) -/
  aad : Word
  /-- `AADLEN` (R31) -/
  aadlen : Word
  /-- `COUNTER` (R32) -/
  counter : Word
  /-- `NONCE0`..`NONCE2` (R34) -/
  nonce : Vector Word 3
  /-- `KEY0`..`KEY7` (R35) -/
  key : Vector Word 8
  /-- `MACKEY0`..`MACKEY7` (R36) -/
  mackey : Vector Word 8
  /-- `STATE0`..`STATE15` (R18) -/
  state : Vector Word 16
  /-- `TAG0`..`TAG3` (R37) -/
  tag : Vector Word 4
  /-- `h.CMDWORD` (R40) -/
  cmdWord : Word
  /-- `h.MAC_ACTIVE`, shown as `STATUS.MAC_ACTIVE` (R40, R23) -/
  macActive : Bool
  /-- `h.MAC_R` (R40) -/
  macR : BitVec 128
  /-- `h.MAC_S` (R40) -/
  macS : BitVec 128
  /-- `h.MAC_ACC`, shown as `ACC0`..`ACC4` (R40, R38) -/
  macAcc : BitVec 130
  /-- the buffer memory (R41) -/
  mem : Memory
  /-- the model's own: the number of the next abort's free choices (log 5) -/
  freeTick : Nat
  /-- the model's own: the inputs still to come, first first (log 3) -/
  inputs : List Input
  /-- the model's own: the answers the bus has given the host, newest first (log 4) -/
  responses : List BusResponse
deriving DecidableEq, Repr

/-- The state after a power-on reset of a block with parameters `c` (R42, R133): every register and hidden state 0, no
buffer byte written. The model's own fields are empty and 0 (log 3, log 4, log 5). -/
def State.powerOn (c : Config) : State where
  cfg := c
  irqEn := false
  busy := false
  done := false
  err := false
  authFail := false
  werr := false
  errcode := .none
  len := 0#32
  src := 0#32
  dst := 0#32
  aad := 0#32
  aadlen := 0#32
  counter := 0#32
  nonce := #v[0#32, 0#32, 0#32]
  key := #v[0#32, 0#32, 0#32, 0#32, 0#32, 0#32, 0#32, 0#32]
  mackey := #v[0#32, 0#32, 0#32, 0#32, 0#32, 0#32, 0#32, 0#32]
  state := #v[0#32, 0#32, 0#32, 0#32, 0#32, 0#32, 0#32, 0#32, 0#32, 0#32, 0#32, 0#32, 0#32, 0#32, 0#32, 0#32]
  tag := #v[0#32, 0#32, 0#32, 0#32]
  cmdWord := 0#32
  macActive := false
  macR := 0#128
  macS := 0#128
  macAcc := 0#130
  mem := []
  freeTick := 0
  inputs := []
  responses := []

/-- The machine right after a power-on reset, with the default parameters of R6 (log 2). -/
def State.reset : State := State.powerOn Config.standard

/-- Why the machine stops. -/
inductive Fault where
  /-- Raised by a host read or a command that reads the buffer byte at `a`, which nothing has written since
  power-on: the spec's own choice for a model (R56, U1). Safe: hardware goes on with some value. -/
  | unwrittenByte (a : Nat)
  /-- Raised by a host access at window offset `off` that R48 does not allow, once the block has answered it with a bus
  error: what the host does next is the platform's, so the run ends for claims (R49, U9). Safe: the block itself goes on
  unchanged. -/
  | busError (off : Nat)
deriving DecidableEq, Repr

/-- Why the model has no answer. -/
inductive Refusal where
  /-- Raised by `exec` for a command that has no meaning yet; no command of this model is left so. Safe. -/
  | notModelled (mnemonic : String)
deriving DecidableEq, Repr

end Sys2Proof.Machine
end

