-- ==== Sys2Proof/Machine/Flags.lean ====
section
/-! DEFINITION. The status, control, error and accumulator views, the W1C write of `STATUS`, and the interrupt output. -/

namespace Sys2Proof.Machine

/-- The number of an error code (R112). -/
def errNumber : ErrCode → Nat
  | .none => 0x00
  | .opcode => 0x01
  | .rsvd => 0x02
  | .aliased => 0x03
  | .macState => 0x04
  | .range => 0x05
  | .overlap => 0x06
  | .counter => 0x07
  | .auth => 0x08

/-- A flag at bit `i` of a register word. -/
def flagBit (b : Bool) (i : Nat) : Word := if b then 1#32 <<< i else 0#32

/-- What `STATUS` reads (R23); reserved bits 31:6 read 0. -/
def statusWord (s : State) : Word :=
  flagBit s.busy 0 ||| flagBit s.done 1 ||| flagBit s.err 2 ||| flagBit s.authFail 3 ||| flagBit s.werr 4
    ||| flagBit s.macActive 5

/-- What `CTRL` reads (R22): `IRQ_EN` in bit 0, `SRESET` and the reserved bits 0. -/
def ctrlWord (s : State) : Word := flagBit s.irqEn 0

/-- What `ERRCODE` reads (R26). -/
def errcodeWord (s : State) : Word := BitVec.ofNat 32 (errNumber s.errcode)

/-- What `ACC(i)` reads when idle (R38). -/
def accWord (s : State) (i : Fin 5) : Word := s.macAcc.extractLsb' (32 * i.val) 32

/-- A host write of `v` to `STATUS` (R23): `DONE`, `ERR` and `WERR` are cleared by a 1, the other bits ignore it. This
is also the host's acknowledgment of a completion (R123); the block has no return from an error completion. -/
def writeStatus (v : Word) (s : State) : State :=
  { s with
    done := s.done && !v.getLsbD 1
    err := s.err && !v.getLsbD 2
    werr := s.werr && !v.getLsbD 4 }

/-- The interrupt output (R120). -/
def irq (s : State) : Bool := s.irqEn && s.done

end Sys2Proof.Machine
end

