-- ==== Sys2Proof/Machine/Operands.lean ====
section
/-! DEFINITION. Operand forms: byte order (R11, R12, R33, R46), register groups as byte strings (R97), the chunks of a
message (R87, R94), and the operand checks (R89, R116, R117). -/

namespace Sys2Proof.Machine

/-- `le_int(b)` (R11). -/
def leInt : List Byte → Nat
  | [] => 0
  | b :: bs => b.toNat + 256 * leInt bs

/-- `le32(b)` (R11). -/
def le32 (bs : List Byte) : Word := BitVec.ofNat 32 (leInt bs)

/-- `le_bytes_N(v)` (R12): the low `n` bytes of `v`. -/
def leBytes : Nat → Nat → List Byte
  | 0, _ => []
  | n + 1, v => BitVec.ofNat 8 v :: leBytes n (v / 256)

/-- The four bytes of a word, least significant first (R33, R81). -/
def wordBytes (w : Word) : List Byte := leBytes 4 w.toNat

/-- The byte string a group of registers holds (R33). -/
def groupBytes (ws : List Word) : List Byte := ws.flatMap wordBytes

/-- Word `i` of a byte string: `le32(b[4i .. 4i+4))` (R33, R97). -/
def wordAt (bs : List Byte) (i : Nat) : Word := le32 ((bs.drop (4 * i)).take 4)

/-- `pad16(n)` (R13). -/
def pad16 (n : Nat) : List Byte := List.replicate ((16 - n % 16) % 16) 0#8

/-- `ceil(a / b)` (00_scope.md section 5). -/
def ceilDiv (a b : Nat) : Nat := (a + (b - 1)) / b

/-- The first `k` chunks of `n` bytes of a byte string; the last may be shorter. -/
def chunksAux (n : Nat) : Nat → List Byte → List (List Byte)
  | 0, _ => []
  | k + 1, bs => bs.take n :: chunksAux n k (bs.drop n)

/-- A byte string cut into chunks of `n` bytes, the last one possibly shorter: 64-byte chunks in R87, `BLOCKS` in R94. -/
def chunks (n : Nat) (bs : List Byte) : List (List Byte) := chunksAux n (ceilDiv bs.length n) bs

/-- The 32 key bytes that `MACKEY0`..`MACKEY7` hold (R36, R97). -/
def mackeyBytes (s : State) : List Byte := groupBytes s.mackey.toList

/-- The 16 tag bytes that `TAG0`..`TAG3` hold (R37, R33). -/
def tagBytes (s : State) : List Byte := groupBytes s.tag.toList

/-- A tag as the four words written to `TAG0`..`TAG3` (R97). -/
def tagWords (t : List Byte) : Vector Word 4 := #v[wordAt t 0, wordAt t 1, wordAt t 2, wordAt t 3]

/-- `range_ok(a, n)` (R116), in unbounded arithmetic. -/
def rangeOk (c : Config) (a n : Word) : Bool :=
  n.toNat == 0 || decide (a.toNat + n.toNat ≤ c.bufBytes)

/-- `partial_overlap(s, d, n)` (R117). -/
def partialOverlap (s d n : Word) : Bool :=
  decide (0 < n.toNat) && s != d && decide (s.toNat < d.toNat + n.toNat) && decide (d.toNat < s.toNat + n.toNat)

/-- `intersects(d, n, a, m)` (R117). -/
def intersects (d n a m : Word) : Bool :=
  decide (0 < n.toNat) && decide (0 < m.toNat) && decide (d.toNat < a.toNat + m.toNat)
    && decide (a.toNat < d.toNat + n.toNat)

/-- The counter does not wrap (R89): `c0 + ceil(L / 64) <= 2^32`. -/
def counterFits (c0 : Nat) (len : Word) : Bool := decide (c0 + ceilDiv len.toNat 64 ≤ 2 ^ 32)

end Sys2Proof.Machine
end

