-- ==== Sys2Proof/Machine/Ops.lean ====
section
/-! DEFINITION. The named operations over memory and state: the buffer memory (R14, R44, R55), completion and error
completion (R65, R113, R114, R122), and acceptance (R64). -/

namespace Sys2Proof.Machine

/-- The byte at buffer address `a`, if anything has written it since power-on (R56). -/
def readByte : Memory → Nat → Option Byte
  | [], _ => none
  | (k, v) :: m, a => if k = a then some v else readByte m a

/-- Write one byte, keeping the canonical form. -/
def writeByte : Memory → Nat → Byte → Memory
  | [], a, b => [(a, b)]
  | (k, v) :: m, a, b =>
      if a < k then (a, b) :: (k, v) :: m
      else if a = k then (a, b) :: m
      else (k, v) :: writeByte m a b

/-- `MemRead(a, n)` (R14), or the first address of the range that holds no value (R56). -/
def readBytes (m : Memory) : (a n : Nat) → Except Nat (List Byte)
  | _, 0 => .ok []
  | a, n + 1 =>
      match readByte m a with
      | none => .error a
      | some b =>
          match readBytes m (a + 1) n with
          | .error e => .error e
          | .ok bs => .ok (b :: bs)

/-- `MemWrite(a, n, v)` (R14). -/
def writeBytes (m : Memory) : (a : Nat) → List Byte → Memory
  | _, [] => m
  | a, b :: bs => writeBytes (writeByte m a b) (a + 1) bs

/-- Why a command's rule ends before its last line. -/
inductive Stop where
  /-- `raise Error(e)` (R113) -/
  | raise (e : ErrCode)
  /-- it reads the buffer byte at `a`, which holds no value (R56) -/
  | unwritten (a : Nat)
deriving DecidableEq, Repr

/-- The last lines of a completion (R65) with code `e`. With an error code it is the error completion, the block's only
exception (R113, R122): it saves nothing, transfers control nowhere, and leaves the rest of the state as it is (R114).
There is no return from it; the host acknowledges it by `writeStatus` or by the next `accept` (R123). -/
def complete (e : ErrCode) (s : State) : State :=
  { s with
    errcode := e
    err := e != .none
    authFail := e == .auth
    done := true
    busy := false
    cmdWord := 0#32 }

/-- Take an error completion: the state at acceptance, but for `STATUS`, `ERRCODE` and the latched word (R113, R114). -/
def raiseError (e : ErrCode) (s : State) : Host.Outcome State Fault Refusal := .next (complete e s)

/-- The completion step (R65) of a command whose rule, run on `s`, gives `r`. -/
def finish (s : State) (r : Except Stop State) : Host.Outcome State Fault Refusal :=
  match r with
  | .ok t => .next (complete .none t)
  | .error (.raise e) => raiseError e s
  | .error (.unwritten a) => .fault (.unwrittenByte a)

/-- The bytes of a message operand, once its range check has passed (R55, R56). -/
def readMessage (s : State) (a n : Word) : Except Stop (List Byte) :=
  match readBytes s.mem a.toNat n.toNat with
  | .ok bs => .ok bs
  | .error x => .error (.unwritten x)

/-- Write a command's output bytes to the buffer at `DST` (R91, R110, R111). -/
def storeOutput (s : State) (out : List Byte) : State := { s with mem := writeBytes s.mem s.dst.toNat out }

/-- Acceptance of the command word `v` (R64). It checks nothing. -/
def accept (v : Word) (s : State) : State :=
  { s with
    cmdWord := v
    busy := true
    done := false
    err := false
    authFail := false
    errcode := .none }

end Sys2Proof.Machine
end

