-- ==== Sys2Proof/Machine/Authenticator.lean ====
section
/-! DEFINITION. The one-time authenticator (42_authenticator.md): its field arithmetic, and MAC_INIT, MAC_UPDATE,
MAC_FINAL and MAC. -/

namespace Sys2Proof.Machine

/-- The prime `p = 2^130 - 5` (R92). -/
def fieldPrime : Nat := 2 ^ 130 - 5

/-- `clamp(r)` (R93). -/
def clamp (r : BitVec 128) : BitVec 128 := r &&& 0x0FFFFFFC0FFFFFFC0FFFFFFC0FFFFFFF#128

/-- The multiplier half of `KEYSPLIT(k)`: bytes 0 to 15, clamped (R93). -/
def keyR (k : List Byte) : BitVec 128 := clamp (BitVec.ofNat 128 (leInt (k.take 16)))

/-- The mask half of `KEYSPLIT(k)`: bytes 16 to 31 (R93). -/
def keyS (k : List Byte) : BitVec 128 := BitVec.ofNat 128 (leInt ((k.drop 16).take 16))

/-- `STEP(acc, r, b)` (R94). -/
def macStep (r acc : Nat) (b : List Byte) : Nat := ((acc + leInt (b ++ [0x01#8])) * r) % fieldPrime

/-- `ABSORB(acc, r, msg)` (R94). -/
def absorb (acc r : Nat) (msg : List Byte) : Nat := (chunks 16 msg).foldl (macStep r) acc

/-- `FINISH(acc, s)` (R95). -/
def finishTag (acc s : Nat) : List Byte := leBytes 16 (acc + s)

/-- `POLY(msg, k)` (R95). -/
def poly (msg k : List Byte) : List Byte := finishTag (absorb 0 (keyR k).toNat msg) (keyS k).toNat

/-- MAC_INIT (R98). -/
def execMacInit (s : State) : Host.Outcome State Fault Refusal :=
  finish s
    (.ok { s with
      macR := keyR (mackeyBytes s)
      macS := keyS (mackeyBytes s)
      macAcc := 0#130
      macActive := true })

/-- MAC_UPDATE (R99). -/
def execMacUpdate (s : State) : Host.Outcome State Fault Refusal :=
  finish s
    (if !s.macActive then .error (.raise .macState)
     else if !rangeOk s.cfg s.src s.len then .error (.raise .range)
     else
       match readMessage s s.src s.len with
       | .error e => .error e
       | .ok d => .ok { s with macAcc := BitVec.ofNat 130 (absorb s.macAcc.toNat s.macR.toNat d) })

/-- MAC_FINAL (R100). -/
def execMacFinal (s : State) : Host.Outcome State Fault Refusal :=
  finish s
    (if !s.macActive then .error (.raise .macState)
     else
       .ok { s with
         tag := tagWords (finishTag s.macAcc.toNat s.macS.toNat)
         macR := 0#128
         macS := 0#128
         macAcc := 0#130
         macActive := false })

/-- MAC (R101). -/
def execMac (s : State) : Host.Outcome State Fault Refusal :=
  finish s
    (if !rangeOk s.cfg s.src s.len then .error (.raise .range)
     else
       match readMessage s s.src s.len with
       | .error e => .error e
       | .ok d => .ok { s with tag := tagWords (poly d (mackeyBytes s)) })

end Sys2Proof.Machine
end

