-- ==== Sys2Proof/Machine/Permutation.lean ====
section
/-! DEFINITION. The permutation core (40_permutation.md): the ARX functions, and INIT, QROUND, DROUND, PERMUTE. -/

namespace Sys2Proof.Machine

/-- `rotl32(v, n)` for `0 < n < 32` (R10). -/
def rotl32 (v : Word) (n : Nat) : Word := (v <<< n) ||| (v >>> (32 - n))

/-- `QR(a, b, c, d)` (R75). -/
def quarterRound (a b c d : Word) : Word × Word × Word × Word :=
  let a := a + b
  let d := rotl32 (d ^^^ a) 16
  let c := c + d
  let b := rotl32 (b ^^^ c) 12
  let a := a + b
  let d := rotl32 (d ^^^ a) 8
  let c := c + d
  let b := rotl32 (b ^^^ c) 7
  (a, b, c, d)

/-- `QR_at(S, i, j, k, l)` for pairwise distinct indices (R75). -/
def quarterRoundAt (S : Vector Word 16) (i j k l : Fin 16) : Vector Word 16 :=
  let (a, b, c, d) := quarterRound S[i] S[j] S[k] S[l]
  (((S.set i a).set j b).set k c).set l d

/-- The column half of a double round (R76). -/
def columnRound (S : Vector Word 16) : Vector Word 16 :=
  let S := quarterRoundAt S 0 4 8 12
  let S := quarterRoundAt S 1 5 9 13
  let S := quarterRoundAt S 2 6 10 14
  quarterRoundAt S 3 7 11 15

/-- The diagonal half of a double round (R76). -/
def diagonalRound (S : Vector Word 16) : Vector Word 16 :=
  let S := quarterRoundAt S 0 5 10 15
  let S := quarterRoundAt S 1 6 11 12
  let S := quarterRoundAt S 2 7 8 13
  quarterRoundAt S 3 4 9 14

/-- `DR(S)` (R76). -/
def doubleRound (S : Vector Word 16) : Vector Word 16 := diagonalRound (columnRound S)

/-- `n` double rounds. -/
def doubleRounds : Nat → Vector Word 16 → Vector Word 16
  | 0, S => S
  | n + 1, S => doubleRounds n (doubleRound S)

/-- Word-wise addition modulo 2^32 of two states (R74, R78). -/
def addWords (A B : Vector Word 16) : Vector Word 16 :=
  #v[A[0] + B[0], A[1] + B[1], A[2] + B[2], A[3] + B[3],
     A[4] + B[4], A[5] + B[5], A[6] + B[6], A[7] + B[7],
     A[8] + B[8], A[9] + B[9], A[10] + B[10], A[11] + B[11],
     A[12] + B[12], A[13] + B[13], A[14] + B[14], A[15] + B[15]]

/-- `PERM(S)` (R78): ten double rounds on a working copy, then the original state added. -/
def perm (S : Vector Word 16) : Vector Word 16 := addWords (doubleRounds 10 S) S

/-- `INITSTATE(K, ctr, N)` (R79, R80). -/
def initState (K : Vector Word 8) (ctr : Word) (N : Vector Word 3) : Vector Word 16 :=
  #v[0x61707865#32, 0x3320646E#32, 0x79622D32#32, 0x6B206574#32,
     K[0], K[1], K[2], K[3], K[4], K[5], K[6], K[7],
     ctr, N[0], N[1], N[2]]

/-- `SER(S)` (R81). -/
def serialise (S : Vector Word 16) : List Byte := groupBytes S.toList

/-- `KS(K, ctr, N)` (R81): the keystream block. -/
def keystreamBlock (K : Vector Word 8) (ctr : Word) (N : Vector Word 3) : List Byte :=
  serialise (perm (initState K ctr N))

/-- INIT (R83). -/
def execInit (s : State) : Host.Outcome State Fault Refusal :=
  finish s (.ok { s with state := initState s.key s.counter s.nonce })

/-- QROUND (R84). -/
def execQround (qa qb qc qd : Fin 16) (s : State) : Host.Outcome State Fault Refusal :=
  finish s
    (if pairwiseDistinct qa qb qc qd then .ok { s with state := quarterRoundAt s.state qa qb qc qd }
     else .error (.raise .aliased))

/-- DROUND (R85). -/
def execDround (s : State) : Host.Outcome State Fault Refusal :=
  finish s (.ok { s with state := doubleRound s.state })

/-- PERMUTE (R86). -/
def execPermute (s : State) : Host.Outcome State Fault Refusal :=
  finish s (.ok { s with state := perm s.state })

end Sys2Proof.Machine
end

