-- ==== Sys2Proof/Machine/Stream.lean ====
section
/-! DEFINITION. The stream cipher (41_stream.md): counter mode, and BLOCK and XOR. -/

namespace Sys2Proof.Machine

/-- Bytewise exclusive-or, as long as the shorter string: a chunk against a prefix of a keystream block (R87). -/
def xorBytes (a b : List Byte) : List Byte := List.zipWith (fun x y => x ^^^ y) a b

/-- Combine chunks with the keystream blocks of successive counters from `c` on (R87). -/
def streamChunks (K : Vector Word 8) (N : Vector Word 3) : Nat → List (List Byte) → List Byte
  | _, [] => []
  | c, ch :: rest => xorBytes ch (keystreamBlock K (BitVec.ofNat 32 c) N) ++ streamChunks K N (c + 1) rest

/-- `STREAM(K, N, c0, D)` (R87). -/
def stream (K : Vector Word 8) (N : Vector Word 3) (c0 : Nat) (D : List Byte) : List Byte :=
  streamChunks K N c0 (chunks 64 D)

/-- BLOCK (R90). -/
def execBlock (s : State) : Host.Outcome State Fault Refusal :=
  finish s (.ok { s with state := perm (initState s.key s.counter s.nonce) })

/-- The bytes XOR writes at `DST`, after its checks in R91's order. -/
def xorOutput (s : State) : Except Stop (List Byte) :=
  if !(rangeOk s.cfg s.src s.len && rangeOk s.cfg s.dst s.len) then .error (.raise .range)
  else if partialOverlap s.src s.dst s.len then .error (.raise .overlap)
  else if !counterFits s.counter.toNat s.len then .error (.raise .counter)
  else
    match readMessage s s.src s.len with
    | .error e => .error e
    | .ok d => .ok (stream s.key s.nonce s.counter.toNat d)

/-- XOR (R91). -/
def execXor (s : State) : Host.Outcome State Fault Refusal :=
  finish s
    (match xorOutput s with
     | .error e => .error e
     | .ok out => .ok (storeOutput s out))

end Sys2Proof.Machine
end

