-- ==== Sys2Proof/Machine/Aead.lean ====
section
/-! DEFINITION. The AEAD composer (43_aead.md): key derivation, framing, seal and open, and KEYGEN, SEAL and OPEN. -/

namespace Sys2Proof.Machine

/-- `OTK(K, N)` (R102). -/
def oneTimeKey (K : Vector Word 8) (N : Vector Word 3) : List Byte := (keystreamBlock K 0#32 N).take 32

/-- `FRAME(aad, ct)` (R103). -/
def frame (aad ct : List Byte) : List Byte :=
  aad ++ pad16 aad.length ++ ct ++ pad16 ct.length ++ leBytes 8 aad.length ++ leBytes 8 ct.length

/-- The tag over associated data and ciphertext (R104, R105). -/
def aeadTag (K : Vector Word 8) (N : Vector Word 3) (aad ct : List Byte) : List Byte :=
  poly (frame aad ct) (oneTimeKey K N)

/-- `SEALF(K, N, pt, aad)` (R104): ciphertext and tag. -/
def sealF (K : Vector Word 8) (N : Vector Word 3) (pt aad : List Byte) : List Byte × List Byte :=
  let ct := stream K N 1 pt
  (ct, aeadTag K N aad ct)

/-- `ct_equal16(a, b)` (R15, R106): the OR of all 16 byte differences is 0. No pair is skipped. -/
def ctEqual16 (a b : List Byte) : Bool :=
  ((List.range 16).foldl (fun d i => d ||| (a.getD i 0#8 ^^^ b.getD i 0#8)) 0#8) == 0#8

/-- `OPENF(K, N, ct, tag, aad)` (R105): the plaintext, or `none` for AuthenticationFailure. -/
def openF (K : Vector Word 8) (N : Vector Word 3) (ct tag aad : List Byte) : Option (List Byte) :=
  if ctEqual16 (aeadTag K N aad ct) tag then some (stream K N 1 ct) else none

/-- KEYGEN (R109). The counter is 0 whatever `COUNTER` holds. -/
def execKeygen (s : State) : Host.Outcome State Fault Refusal :=
  let S := perm (initState s.key 0#32 s.nonce)
  finish s (.ok { s with mackey := #v[S[0], S[1], S[2], S[3], S[4], S[5], S[6], S[7]] })

/-- The checks SEAL and OPEN share, in order, and then their operands: message and associated data (R110, R111). -/
def aeadOperands (s : State) : Except Stop (List Byte × List Byte) :=
  if !(rangeOk s.cfg s.src s.len && rangeOk s.cfg s.dst s.len && rangeOk s.cfg s.aad s.aadlen) then
    .error (.raise .range)
  else if partialOverlap s.src s.dst s.len || intersects s.dst s.len s.aad s.aadlen then .error (.raise .overlap)
  else if !counterFits 1 s.len then .error (.raise .counter)
  else
    match readMessage s s.src s.len with
    | .error e => .error e
    | .ok m =>
        match readMessage s s.aad s.aadlen with
        | .error e => .error e
        | .ok a => .ok (m, a)

/-- The ciphertext and the tag SEAL writes, after its checks (R110). -/
def sealOutput (s : State) : Except Stop (List Byte × List Byte) :=
  match aeadOperands s with
  | .error e => .error e
  | .ok (pt, aad) => .ok (sealF s.key s.nonce pt aad)

/-- SEAL (R110). -/
def execSeal (s : State) : Host.Outcome State Fault Refusal :=
  finish s
    (match sealOutput s with
     | .error e => .error e
     | .ok (ct, tag) => .ok { storeOutput s ct with tag := tagWords tag })

/-- The plaintext OPEN writes, after its checks and only when the tag matches (R111). -/
def openOutput (s : State) : Except Stop (List Byte) :=
  match aeadOperands s with
  | .error e => .error e
  | .ok (ct, aad) =>
      match openF s.key s.nonce ct (tagBytes s) aad with
      | none => .error (.raise .auth)
      | some pt => .ok pt

/-- OPEN (R111). -/
def execOpen (s : State) : Host.Outcome State Fault Refusal :=
  finish s
    (match openOutput s with
     | .error e => .error e
     | .ok pt => .ok (storeOutput s pt))

end Sys2Proof.Machine
end

