-- ==== Sys2Proof/Machine/Dispatch.lean ====
section
/-! DEFINITION. The completion of each command (R65, R69): one arm per constructor of Instr. -/

namespace Sys2Proof.Machine

def exec (i : Instr) (s : State) : Host.Outcome State Fault Refusal :=
  match i with
  | .init => Sys2Proof.Machine.execInit s
  | .qround qa qb qc qd => Sys2Proof.Machine.execQround qa qb qc qd s
  | .dround => Sys2Proof.Machine.execDround s
  | .permute => Sys2Proof.Machine.execPermute s
  | .block => Sys2Proof.Machine.execBlock s
  | .xor => Sys2Proof.Machine.execXor s
  | .macInit => Sys2Proof.Machine.execMacInit s
  | .macUpdate => Sys2Proof.Machine.execMacUpdate s
  | .macFinal => Sys2Proof.Machine.execMacFinal s
  | .mac => Sys2Proof.Machine.execMac s
  | .keygen => Sys2Proof.Machine.execKeygen s
  | .aeadSeal => Sys2Proof.Machine.execSeal s
  | .aeadOpen => Sys2Proof.Machine.execOpen s

end Sys2Proof.Machine
end

