-- ==== Sys2Proof/Machine/Sequencer.lean ====
section
/-! DEFINITION. The Sequencer's step (R65) and what a soft reset leaves of a pending command (R135). -/

namespace Sys2Proof.Machine

/-- The error code of a word that is no command (R70, R71). -/
def decodeErrCode : DecodeError → ErrCode
  | .opcode => .opcode
  | .rsvd => .rsvd

/-- The completion of the pending command (R65): decode `h.CMDWORD`, then perform the command or report the decoding
error, which the check order of R118 puts first. -/
def completion (s : State) : Host.Outcome State Fault Refusal :=
  match decode s.cmdWord with
  | .ok i => exec i s
  | .error e => raiseError (decodeErrCode e) s

/-- The bytes a command would write to its output range `[DST, DST + LEN)` (R69's column "writes"), or why it would write
none. Only XOR, SEAL and OPEN write the buffer. -/
def bufferOutput (i : Instr) (s : State) : Except Stop (List Byte) :=
  match i with
  | .xor => xorOutput s
  | .aeadSeal =>
      match sealOutput s with
      | .ok (ct, _) => .ok ct
      | .error e => .error e
  | .aeadOpen => openOutput s
  | .init | .qround _ _ _ _ | .dround | .permute | .block | .macInit | .macUpdate | .macFinal | .mac | .keygen => .ok []

/-- The buffer after an abort (R135): of the bytes the command would have written from `a` on, each is either written or
not, as the free choices of abort `tick` say (U2, log 5). -/
def mixBytes (tick : Nat) (m : Memory) : (a : Nat) → List Byte → Memory
  | _, [] => m
  | a, b :: bs => mixBytes tick (if Config.abortTakesNew tick a then writeByte m a b else m) (a + 1) bs

/-- The buffer with every byte of `[a, a + n)` that holds no value given an open one, numbered by the abort (R56, U1;
log 8). A byte that holds a value keeps it. -/
def fillBytes (tick : Nat) : Memory → (a n : Nat) → Memory
  | m, _, 0 => m
  | m, a, n + 1 =>
      match readByte m a with
      | some _ => fillBytes tick m (a + 1) n
      | none => fillBytes tick (writeByte m a (Config.unwrittenValue tick a)) (a + 1) n

/-- The state the pending command would have run on had it not been aborted: its operand bytes that nothing has written
hold some value each, which the spec leaves open (R56, R135; log 8). -/
def operandsFilled (s : State) : State :=
  { s with
    mem := fillBytes s.freeTick (fillBytes s.freeTick s.mem s.src.toNat s.len.toNat) s.aad.toNat s.aadlen.toNat }

/-- The buffer a soft reset leaves when it aborts the pending command (R135). The abort reads nothing, so it never faults:
an unwritten operand byte only makes the value the command would have written an open one. -/
def abortBuffer (s : State) : Memory :=
  match decode s.cmdWord with
  | .error _ => s.mem
  | .ok i =>
      match bufferOutput i (operandsFilled s) with
      | .ok out => mixBytes s.freeTick s.mem s.dst.toNat out
      | .error _ => s.mem

/-- Every register and hidden state at its reset value, the buffer memory `m` (R42, R134). The parameters and the model's
own lists are no part of a reset; the next abort gets choices of its own. -/
def resetRegisters (m : Memory) (s : State) : State :=
  { State.powerOn s.cfg with
    mem := m
    freeTick := s.freeTick + 1
    inputs := s.inputs
    responses := s.responses }

/-- A soft reset (R134): abort the pending command, if any, then reset everything but the buffer memory. -/
def softReset (s : State) : State := resetRegisters (if s.busy then abortBuffer s else s.mem) s

/-- A power-on reset of a running block (R133): no buffer byte is written any more (R56). -/
def powerOnReset (s : State) : State := resetRegisters [] s

end Sys2Proof.Machine
end

