-- ==== Sys2Proof/Machine/Bus.lean ====
section
/-! DEFINITION. Host accesses to the window (20_memory.md sections 3 and 4): the register map (R17), legality (R48), and
the effect of each read and write, idle and busy (R16, R51 to R53). -/

namespace Sys2Proof.Machine

/-- The registers of R17's table. -/
inductive Reg where
  /-- `ID` -/
  | id
  /-- `CTRL` -/
  | ctrl
  /-- `STATUS` -/
  | status
  /-- `CMD` -/
  | cmd
  /-- `ERRCODE` -/
  | errcode
  /-- `LEN` -/
  | len
  /-- `SRC` -/
  | src
  /-- `DST` -/
  | dst
  /-- `AAD` -/
  | aad
  /-- `AADLEN` -/
  | aadlen
  /-- `COUNTER` -/
  | counter
  /-- `NONCE0`..`NONCE2` -/
  | nonce (i : Fin 3)
  /-- `KEY0`..`KEY7` -/
  | key (i : Fin 8)
  /-- `MACKEY0`..`MACKEY7` -/
  | mackey (i : Fin 8)
  /-- `STATE0`..`STATE15` -/
  | state (i : Fin 16)
  /-- `TAG0`..`TAG3` -/
  | tag (i : Fin 4)
  /-- `ACC0`..`ACC4` -/
  | acc (i : Fin 5)
deriving DecidableEq, Repr

/-- The offset of a register (R17). -/
def regOffset : Reg → Nat
  | .id => 0x000
  | .ctrl => 0x004
  | .status => 0x008
  | .cmd => 0x00C
  | .errcode => 0x010
  | .len => 0x014
  | .src => 0x018
  | .dst => 0x01C
  | .aad => 0x020
  | .aadlen => 0x024
  | .counter => 0x028
  | .nonce i => 0x02C + 4 * i.val
  | .key i => 0x040 + 4 * i.val
  | .mackey i => 0x060 + 4 * i.val
  | .state i => 0x080 + 4 * i.val
  | .tag i => 0x0C0 + 4 * i.val
  | .acc i => 0x0D0 + 4 * i.val

/-- Every register of R17's table, in the order of their offsets. -/
def allRegs : List Reg :=
  List.flatten
    [[.id, .ctrl, .status, .cmd, .errcode, .len, .src, .dst, .aad, .aadlen, .counter],
     (List.finRange 3).map Reg.nonce, (List.finRange 8).map Reg.key, (List.finRange 8).map Reg.mackey,
     (List.finRange 16).map Reg.state, (List.finRange 4).map Reg.tag, (List.finRange 5).map Reg.acc]

/-- The register at an offset of the register space; none where the offset is reserved (R17, R39). -/
def regAt (off : Nat) : Option Reg := allRegs.find? fun r => regOffset r == off

/-- The bytes an access of a width moves (R48). -/
def widthBytes : Width → Nat
  | .w1 => 1
  | .w2 => 2
  | .w4 => 4

/-- The first window offset of the buffer region (R43). -/
abbrev bufferBase : Nat := 0x1000

/-- A legal access to the register space (R48): four bytes, aligned. -/
def legalRegister (off : Nat) (w : Width) : Bool := decide (off < bufferBase) && w == .w4 && off % 4 == 0

/-- A legal access to the buffer region (R48): naturally aligned. -/
def legalBuffer (c : Config) (off : Nat) (w : Width) : Bool :=
  decide (bufferBase ≤ off) && decide (off < bufferBase + c.bufBytes) && off % widthBytes w == 0

/-- A host access is legal exactly when R48's table says so. -/
def legalAccess (c : Config) (off : Nat) (w : Width) : Bool := legalRegister off w || legalBuffer c off w

/-- What a register reads while the block is idle (R16). -/
def readReg (s : State) : Reg → Word
  | .id => s.cfg.idValue
  | .ctrl => ctrlWord s
  | .status => statusWord s
  | .cmd => 0#32
  | .errcode => errcodeWord s
  | .len => s.len
  | .src => s.src
  | .dst => s.dst
  | .aad => s.aad
  | .aadlen => s.aadlen
  | .counter => s.counter
  | .nonce i => s.nonce[i]
  | .key _ => 0#32
  | .mackey i => s.mackey[i]
  | .state i => s.state[i]
  | .tag i => s.tag[i]
  | .acc i => accWord s i

/-- The registers that read 0 while a command is pending (R53). -/
def hiddenWhileBusy : Reg → Bool
  | .mackey _ | .state _ | .tag _ | .acc _ => true
  | .id | .ctrl | .status | .cmd | .errcode | .len | .src | .dst | .aad | .aadlen | .counter | .nonce _ | .key _ => false

/-- The registers whose writes are dropped, with `WERR` set, while a command is pending (R52). -/
def lockedWhileBusy : Reg → Bool
  | .cmd | .len | .src | .dst | .aad | .aadlen | .counter | .nonce _ | .key _ | .mackey _ | .state _ | .tag _ => true
  | .id | .ctrl | .status | .errcode | .acc _ => false

/-- A write to a register that is not dropped (R16, R22, R23, R25). -/
def writeReg (s : State) (v : Word) : Reg → State
  | .id => s
  | .ctrl => if v.getLsbD 1 then softReset s else { s with irqEn := v.getLsbD 0 }
  | .status => writeStatus v s
  | .cmd => accept v s
  | .errcode => s
  | .len => { s with len := v }
  | .src => { s with src := v }
  | .dst => { s with dst := v }
  | .aad => { s with aad := v }
  | .aadlen => { s with aadlen := v }
  | .counter => { s with counter := v }
  | .nonce i => { s with nonce := s.nonce.set i v }
  | .key i => { s with key := s.key.set i v }
  | .mackey i => { s with mackey := s.mackey.set i v }
  | .state i => { s with state := s.state.set i v }
  | .tag i => { s with tag := s.tag.set i v }
  | .acc _ => s

/-- A write dropped because a command is pending (R52). -/
def dropWrite (s : State) : State := { s with werr := true }

/-- The low `n` bytes of bus data, least significant first (R47, R48). -/
def busBytes (n : Nat) (v : Word) : List Byte := leBytes n v.toNat

/-- The response to a read with data `v`. -/
def readResponse (v : Word) : BusResponse := { error := false, data := some v }

/-- The response to a write. -/
def writeResponse : BusResponse := { error := false, data := none }

/-- `HostRead(off, w)` at the block (R48, R49, R51, R53): the response; a read changes no state. Reading a buffer byte
that holds no value faults (R56); while a command is pending the buffer is not read but gives 0. -/
def busRead (s : State) (off : Nat) (w : Width) : Except Fault BusResponse :=
  if legalRegister off w then
    match regAt off with
    | none => .ok (readResponse 0#32)
    | some r => .ok (readResponse (if s.busy && hiddenWhileBusy r then 0#32 else readReg s r))
  else if legalBuffer s.cfg off w then
    if s.busy then .ok (readResponse 0#32)
    else
      match readBytes s.mem (off - bufferBase) (widthBytes w) with
      | .ok bs => .ok (readResponse (le32 bs))
      | .error a => .error (.unwrittenByte a)
  else .ok { error := true, data := some 0#32 }

/-- `HostWrite(off, w, v)` at the block (R48, R49, R52): the next state and the response. -/
def busWrite (s : State) (off : Nat) (w : Width) (v : Word) : State × BusResponse :=
  if legalRegister off w then
    match regAt off with
    | none => (s, writeResponse)
    | some r => (if s.busy && lockedWhileBusy r then dropWrite s else writeReg s v r, writeResponse)
  else if legalBuffer s.cfg off w then
    if s.busy then (dropWrite s, writeResponse)
    else ({ s with mem := writeBytes s.mem (off - bufferBase) (busBytes (widthBytes w) v) }, writeResponse)
  else (s, { error := true, data := none })

/-- One host access at the block: the next state and the response. -/
def busAccess (s : State) : Access → Except Fault (State × BusResponse)
  | .read off w =>
      match busRead s off w with
      | .ok r => .ok (s, r)
      | .error f => .error f
  | .write off w v => .ok (busWrite s off w v)

/-- The window offset of an access. -/
def accessOffset : Access → Nat
  | .read off _ => off
  | .write off _ _ => off

/-- One host access as a step of block and host together: the response reaches the host. After a bus error the host's
next move is the platform's, so the run stops there (R49, U9; log 7). -/
def hostAccess (s : State) (a : Access) : Host.Outcome State Fault Refusal :=
  match busAccess s a with
  | .error f => .fault f
  | .ok (t, r) => if r.error then .fault (.busError (accessOffset a)) else .next { t with responses := r :: t.responses }

/-- One `rd STATUS` of the host's `wait` (R73), with `rest` the inputs that come after it. -/
def pollStatus (s : State) (rest : List Input) : Host.Outcome State Fault Refusal :=
  hostAccess { s with inputs := rest } (.read (regOffset .status) .w4)

/-- The next step of block and outside world (R7, R59, R65; log 3): the first pending input, in order. With none left the
Sequencer completes a pending command (R66), and an idle block stays as it is (R132). A `wait` at the head reads `STATUS`
and stays while `BUSY` reads 1; after its count of such reads the Sequencer takes its step, and the next read gives `BUSY`
0 and ends the `wait` (R73; log 9). -/
def takeTurn (s : State) : Host.Outcome State Fault Refusal :=
  match s.inputs with
  | [] => if s.busy then completion s else .next s
  | .access a :: rest => hostAccess { s with inputs := rest } a
  | .waitIdle 0 :: rest => if s.busy then completion s else pollStatus s rest
  | .waitIdle (n + 1) :: rest => pollStatus s (if s.busy then .waitIdle n :: rest else rest)
  | .sequencer :: rest =>
      if s.busy then completion { s with inputs := rest } else .next { s with inputs := rest }
  | .powerOnReset :: rest => .next (powerOnReset { s with inputs := rest })

end Sys2Proof.Machine
end

