-- ==== Sys2Proof/Machine/Step.lean ====
section
/-! DEFINITION. One step of the machine (R7, R59, R65), and the launch of a command as the very next step. -/

namespace Sys2Proof.Machine

/-- One step: the next turn of host or Sequencer. -/
def step (s : State) : Host.Outcome State Fault Refusal := takeTurn s

/-- The block fetches no instructions (R20, R62): a command reaches it by a write to `CMD`. This is the state that
acceptance of the word leaves (R64), with the Sequencer's turn next, so that the very next step performs it (log 10). -/
def State.withFetchWord (s : State) (nbits w : Nat) : State :=
  { accept (tableWord nbits w) s with inputs := .sequencer :: s.inputs }

end Sys2Proof.Machine
end

