-- ==== Sys2Proof/Machine/Program.lean ====
section
/-! DEFINITION. The host-program syntax of 30_encoding.md section 5 (R72, R73) and its expansion into bus accesses. -/

namespace Sys2Proof.Machine

/-- A host statement (R72) or pseudo-statement (R73). -/
inductive Stmt where
  /-- `cmd MNEMONIC`, and `cmd QROUND a, b, c, d` -/
  | cmd (i : Instr)
  /-- `cmd 0xHHHHHHHH` -/
  | cmdRaw (w : Word)
  /-- `wr NAME, imm32` -/
  | wr (r : Reg) (v : Word)
  /-- `rd NAME` -/
  | rd (r : Reg)
  /-- `wrb addr, b0 b1 ...` -/
  | wrb (addr : Nat) (bs : List Byte)
  /-- `rdb addr, n` -/
  | rdb (addr n : Nat)
  /-- `wait` -/
  | wait
  /-- `run MNEMONIC [fields]` -/
  | run (i : Instr)
  /-- `wrkey k0 .. k31` -/
  | wrkey (k : Vector Byte 32)
  /-- `wrnonce n0 .. n11` -/
  | wrnonce (n : Vector Byte 12)
  /-- `wrmackey m0 .. m31` -/
  | wrmackey (m : Vector Byte 32)
  /-- `wrtag t0 .. t15` -/
  | wrtag (t : Vector Byte 16)
  /-- `rdtag` -/
  | rdtag
deriving DecidableEq, Repr

/-- `HostWrite(offset(NAME), 4, v)`. -/
def writeRegInput (r : Reg) (v : Word) : Input := .access (.write (regOffset r) .w4 v)

/-- `HostRead(offset(NAME), 4)`. -/
def readRegInput (r : Reg) : Input := .access (.read (regOffset r) .w4)

/-- `HostWrite(0x1000 + addr + j, 1, bj)` for each `j` in order. -/
def writeBytesInputs : (addr : Nat) → List Byte → List Input
  | _, [] => []
  | a, b :: bs => .access (.write (bufferBase + a) .w1 (b.setWidth 32)) :: writeBytesInputs (a + 1) bs

/-- `HostRead(0x1000 + addr + j, 1)` for `j = 0 .. n-1`. -/
def readBytesInputs : (addr n : Nat) → List Input
  | _, 0 => []
  | a, n + 1 => .access (.read (bufferBase + a) .w1) :: readBytesInputs (a + 1) n

/-- The bus accesses of a statement (R72, R73). -/
def stmtInputs : Stmt → List Input
  | .cmd i => [writeRegInput .cmd (encode i)]
  | .cmdRaw w => [writeRegInput .cmd w]
  | .wr r v => [writeRegInput r v]
  | .rd r => [readRegInput r]
  | .wrb a bs => writeBytesInputs a bs
  | .rdb a n => readBytesInputs a n
  | .wait => [.waitIdle 0]
  | .run i => [writeRegInput .cmd (encode i), .waitIdle 0]
  | .wrkey k => (List.finRange 8).map fun i => writeRegInput (.key i) (wordAt k.toList i.val)
  | .wrnonce n => (List.finRange 3).map fun i => writeRegInput (.nonce i) (wordAt n.toList i.val)
  | .wrmackey m => (List.finRange 8).map fun i => writeRegInput (.mackey i) (wordAt m.toList i.val)
  | .wrtag t => (List.finRange 4).map fun i => writeRegInput (.tag i) (wordAt t.toList i.val)
  | .rdtag => (List.finRange 4).map fun i => readRegInput (.tag i)

/-- The bus accesses of a host program, in order. DESIGN CHOICE (U3; log 11): no turn of the Sequencer is placed between
them, and no `wait` reads `BUSY` 1, so a command stays pending until the next `wait` or the program's end and completes
there at once. This is one of the runs the spec allows; `isRunOf` says which lists of inputs are the others. -/
def programInputs (p : List Stmt) : List Input := p.flatMap stmtInputs

/-- The inputs with what the interleaving adds to a program taken away: the turns of the Sequencer, and how many reads of
each `wait` find `BUSY` 1. -/
def withoutInterleaving (inputs : List Input) : List Input :=
  inputs.filterMap fun x =>
    match x with
    | .sequencer => none
    | .waitIdle _ => some (.waitIdle 0)
    | .access a => some (.access a)
    | .powerOnReset => some .powerOnReset

/-- A list of inputs is a run of the host program `p` when it has the program's accesses in order, turns of the Sequencer
anywhere among them, and any number of reads in each `wait`: every interleaving of R59 and R65 (R73, U3, V-HOST7). -/
def isRunOf (p : List Stmt) (inputs : List Input) : Bool := withoutInterleaving inputs == programInputs p

/-- A state with a host program as its pending inputs, in the interleaving of `programInputs` (log 11). -/
def loadProgram (p : List Stmt) (s : State) : State := { s with inputs := programInputs p }

end Sys2Proof.Machine
end

