-- ==== Sys2Proof/Safety.lean ====
section
/-! DEFINITION. The terms claims about the block use: its invariant, what commands leave alone, when a run has ended, and
the abstract latency. -/

namespace Sys2Proof.Machine

/-- The invariant every step keeps: legal parameters (R6), the buffer memory in canonical form and inside the buffer
(R44), the accumulator below p (R38, R40, R99), a clamped session multiplier (R93), nothing left of a closed session (R40,
R100), no latched word while idle (R65), clear outcome bits while busy (R64), and the flags in agreement with `ERRCODE`
(R23). -/
def State.Inv (s : State) : Prop :=
  s.cfg.ok = true
    ∧ s.mem.wf
    ∧ (∀ c ∈ s.mem, c.1 < s.cfg.bufBytes)
    ∧ s.macAcc.toNat < 2 ^ 130 - 5
    ∧ clamp s.macR = s.macR
    ∧ (s.macActive = false → s.macR = 0#128 ∧ s.macS = 0#128 ∧ s.macAcc = 0#130)
    ∧ (s.busy = false → s.cmdWord = 0#32)
    ∧ (s.busy = true → s.done = false ∧ s.err = false ∧ s.authFail = false ∧ s.errcode = .none)
    ∧ (s.authFail = true ↔ s.errcode = .auth)
    ∧ (s.err = true → s.errcode ≠ .none)

/-- What no command writes (R32, R34, R35, R69's column "writes"): the parameters, `CTRL`, `WERR`, every host operand
register, and the model's own lists. -/
def commandsLeave (s t : State) : Prop :=
  t.cfg = s.cfg ∧ t.irqEn = s.irqEn ∧ t.werr = s.werr ∧ t.len = s.len ∧ t.src = s.src ∧ t.dst = s.dst ∧ t.aad = s.aad
    ∧ t.aadlen = s.aadlen ∧ t.counter = s.counter ∧ t.nonce = s.nonce ∧ t.key = s.key ∧ t.freeTick = s.freeTick
    ∧ t.inputs = s.inputs ∧ t.responses = s.responses

/-- The hidden state of the MAC session is the same (R40). -/
def sameSession (s t : State) : Prop :=
  t.macActive = s.macActive ∧ t.macR = s.macR ∧ t.macS = s.macS ∧ t.macAcc = s.macAcc

/-- Every byte of the buffer reads the same, written or not. -/
def sameBuffer (s t : State) : Prop := ∀ a, readByte t.mem a = readByte s.mem a

/-- Every byte of the buffer outside the output range `[DST, DST + LEN)` reads the same. -/
def sameOutsideOutput (s t : State) : Prop :=
  ∀ a, a < s.dst.toNat ∨ s.dst.toNat + s.len.toNat ≤ a → readByte t.mem a = readByte s.mem a

/-- The buffer holds the bytes `bs` from address `a` on. -/
def holdsBytes (m : Memory) (a : Nat) (bs : List Byte) : Prop :=
  ∀ j (h : j < bs.length), readByte m (a + j) = some bs[j]

/-- Every byte that `m` holds reads the same in `m'`; where nothing has been written in `m`, `m'` may hold any value. -/
def keepsWritten (m m' : Memory) : Prop := ∀ a b, readByte m a = some b → readByte m' a = some b

/-- The first byte of the `n` from address `a` on that holds no value is the one at `a + k` (R56). -/
def firstUnwritten (m : Memory) (a n k : Nat) : Prop :=
  k < n ∧ readByte m (a + k) = none ∧ ∀ j, j < k → readByte m (a + j) ≠ none

/-- The operand range `[a, a + n)` lies in the buffer; an empty one always does (R116). -/
def inBuffer (s : State) (a n : Word) : Prop := n.toNat = 0 ∨ a.toNat + n.toNat ≤ s.cfg.bufBytes

/-- The two ranges of `n` bytes meet without coinciding (R117). -/
def overlapsPartly (a b n : Word) : Prop :=
  0 < n.toNat ∧ a ≠ b ∧ a.toNat < b.toNat + n.toNat ∧ b.toNat < a.toNat + n.toNat

/-- The two non-empty ranges meet (R117). -/
def rangesMeet (a n b m : Word) : Prop :=
  0 < n.toNat ∧ 0 < m.toNat ∧ a.toNat < b.toNat + m.toNat ∧ b.toNat < a.toNat + n.toNat

/-- SEAL's and OPEN's ranges all lie in the buffer (R110, R111). -/
def aeadInBuffer (s : State) : Prop :=
  inBuffer s s.src s.len ∧ inBuffer s s.dst s.len ∧ inBuffer s s.aad s.aadlen

/-- SEAL's and OPEN's output overlaps an input in a forbidden way (R117). -/
def aeadOverlaps (s : State) : Prop := overlapsPartly s.src s.dst s.len ∨ rangesMeet s.dst s.len s.aad s.aadlen

/-- The counter stays below 2^32 for a message of `n` bytes from counter `c` on (R89). -/
def counterStays (c : Nat) (n : Word) : Prop := c + (n.toNat + 63) / 64 ≤ 2 ^ 32

/-- Byte `j` of the keystream of `(K, N)` from counter `c` on: byte `j mod 4` of word `(j mod 64) / 4` of the block at
counter `c + j / 64` (R81, R87, R90). -/
def keystreamByte (K : Vector Word 8) (N : Vector Word 3) (c j : Nat) : Byte :=
  ((perm (initState K (BitVec.ofNat 32 (c + j / 64)) N))[j % 64 / 4]'(by omega)).extractLsb' (8 * (j % 4)) 8

/-- `bs` is `D` combined with the keystream from counter `c` on (R87). -/
def isStreamOf (K : Vector Word 8) (N : Vector Word 3) (c : Nat) (D bs : List Byte) : Prop :=
  bs.length = D.length ∧ ∀ j (h : j < bs.length) (h' : j < D.length), bs[j] = D[j] ^^^ keystreamByte K N c j

/-- A front-to-back implementation of XOR's transfer (R55): from byte `k` on, read one byte at `src + k`, combine it, and
write it at `dst + k`, `n` times; `none` if a byte to be read holds no value. -/
def streamFrontToBack (K : Vector Word 8) (N : Vector Word 3) (c src dst : Nat) : (k n : Nat) → Memory → Option Memory
  | _, 0, m => some m
  | k, n + 1, m =>
      match readByte m (src + k) with
      | none => none
      | some b => streamFrontToBack K N c src dst (k + 1) n (writeByte m (dst + k) (b ^^^ keystreamByte K N c k))

/-- A clamped bit of the multiplier (R93): the top four bits of bytes 3, 7, 11 and 15, the low two of bytes 4, 8 and 12. -/
def clampedBit (j : Nat) : Bool :=
  ((j / 8 == 3 || j / 8 == 7 || j / 8 == 11 || j / 8 == 15) && decide (4 ≤ j % 8))
    || ((j / 8 == 4 || j / 8 == 8 || j / 8 == 12) && decide (j % 8 < 2))

/-- At most how many steps a list of inputs takes: one each, and one more for each read of a `wait` that finds `BUSY` 1. -/
def inputSteps : List Input → Nat
  | [] => 0
  | .waitIdle n :: rest => n + 1 + inputSteps rest
  | .access _ :: rest => 1 + inputSteps rest
  | .sequencer :: rest => 1 + inputSteps rest
  | .powerOnReset :: rest => 1 + inputSteps rest

/-- A run of a host program has ended: nothing is left to do and `BUSY` is 0 (R144). -/
def runEnded (s : State) : Prop := s.inputs = [] ∧ s.busy = false

/-- A run of `k` steps without a fault: no unwritten byte read, no bus error (U1, U9). -/
def runsTo (k : Nat) (s t : State) : Prop := Host.Core.run Sys2Proof.core k s = .next t

/-- The check a completion reports, as its number; `E_AUTH` is no check but OPEN's outcome (R118). -/
def failingCheck (e : ErrCode) : Option Nat := if e = .none ∨ e = .auth then none else some (errNumber e)

/-- The abstract latency of the pending command (R143, U5; log 6). DESIGN CHOICE (log 6): the spec gives none for a
completion that faults on an unwritten byte, for OPEN not even whether the tag matches; the model takes that of no failing
check and, as for every command but OPEN, of a match. -/
def completionLatency (s : State) : Nat :=
  match completion s with
  | .next t => Config.latency s.cmdWord s.len s.aadlen (failingCheck t.errcode) (t.errcode != .auth)
  | .fault _ => Config.latency s.cmdWord s.len s.aadlen none true
  | .refused _ => Config.latency s.cmdWord s.len s.aadlen none true

end Sys2Proof.Machine
end

