-- ==== Sys2Proof/Certificates/Slice0/Obligations.lean ====
section
/-! DEFINITION. The statements for the provers. -/

open Sys2Proof Sys2Proof.Machine

/-! ## Encoding -/

/-- R69, R70: decoding a command's word gives the command back, for every value of every field. -/
def Obligations.EncodedCommandDecodesToItself : Prop := ∀ i : Instr, decode (encode i) = .ok i

/-- R69, R70: a word that decodes is the encoding of its command, so no bit is ignored. -/
def Obligations.DecodedWordIsTheEncoding : Prop := ∀ (w : Word) (i : Instr), decode w = .ok i → encode i = w

/-- R70, R71: a pending word whose opcode is 0x00 or 0x0E to 0xFF completes with `E_OPCODE`; one with a legal opcode and a
reserved bit 1 completes with `E_RSVD`; either changes nothing else; every other word is one of the commands. -/
def Obligations.EveryWordIsACommandOrNamedError : Prop :=
  ∀ s : State,
    let op := s.cmdWord.toNat % 256
    let bound := if op = 2 then 2 ^ 24 else 2 ^ 8
    ((op = 0 ∨ 14 ≤ op) →
      decode s.cmdWord = .error .opcode
        ∧ completion s = .next { s with errcode := .opcode, err := true, authFail := false, done := true,
                                        busy := false, cmdWord := 0#32 })
      ∧ (1 ≤ op → op ≤ 13 → bound ≤ s.cmdWord.toNat →
      decode s.cmdWord = .error .rsvd
        ∧ completion s = .next { s with errcode := .rsvd, err := true, authFail := false, done := true,
                                        busy := false, cmdWord := 0#32 })
      ∧ (1 ≤ op → op ≤ 13 → s.cmdWord.toNat < bound →
      ∃ i, decode s.cmdWord = .ok i ∧ completion s = exec i s)

/-- R69, 95_test_vectors.md V-QR2, V-QR8, V-DEC2, V-DEC4: words written out from the encoding. -/
def Obligations.WrittenOutWordsDecode : Prop :=
  decode 0b00000000000000000000000000000001#32 = .ok .init
    ∧ decode 0b00000000110110000111001000000010#32 = .ok (.qround 2 7 8 13)
    ∧ decode 0b00000000001111101001010000000010#32 = .ok (.qround 4 9 14 3)
    ∧ decode 0b00000000000000000000000000000110#32 = .ok .xor
    ∧ decode 0b00000000000000000000000000001001#32 = .ok .macFinal
    ∧ decode 0b00000000000000000000000000001101#32 = .ok .aeadOpen
    ∧ decode 0x0000000E#32 = .error .opcode
    ∧ decode 0x00000105#32 = .error .rsvd

/-! ## Steps -/

/-- R65: when the Sequencer's turn comes with a command pending (no input is left, the input says so, or a `wait` is to
find `BUSY` 1 no more: log 3, log 9), the step is that command's `exec`. -/
def Obligations.StepRunsTheDecodedCommand : Prop :=
  ∀ (s : State) (i : Instr), s.busy = true → decode s.cmdWord = .ok i →
    (s.inputs = [] → step s = exec i s)
      ∧ (∀ rest, s.inputs = .sequencer :: rest → step s = exec i { s with inputs := rest })
      ∧ (∀ rest, s.inputs = .waitIdle 0 :: rest → step s = exec i s)

/-- R64: a write of `v` to `CMD` while idle is an acceptance, whatever `v` is, and changes nothing else; while busy it is
none, and only sets `WERR`. -/
def Obligations.CmdWriteIsAcceptanceWhileIdle : Prop :=
  ∀ (s : State) (v : Word),
    (s.busy = false → busWrite s 0x00C .w4 v =
      ({ s with cmdWord := v, busy := true, done := false, err := false, authFail := false, errcode := .none },
           { error := false, data := none }))
      ∧ (s.busy = true → busWrite s 0x00C .w4 v = ({ s with werr := true }, { error := false, data := none }))

/-- R66 (log 3, log 9): a pending command is over (completed, or ended by a reset) after at most one step more than the
inputs take, which is one each and one more for each read of a `wait` that finds `BUSY` 1, unless the run faults first. -/
def Obligations.EveryAcceptedCommandCompletes : Prop :=
  ∀ s : State, s.busy = true →
    ∃ k, k ≤ inputSteps s.inputs + 1 ∧
      ((∃ t, runsTo k s t ∧ t.busy = false) ∨ ∃ f, Host.Core.run Sys2Proof.core k s = .fault f)

/-- R7, R65, R134, R133: `BUSY` falls only in a completion, which leaves `DONE` set, or in a reset. -/
def Obligations.BusyFallsOnlyByCompletionOrReset : Prop :=
  ∀ s t : State, step s = .next t → s.busy = true → t.busy = false →
    (∃ s', (s' = s ∨ s' = { s with inputs := s.inputs.tail }) ∧ completion s' = .next t ∧ t.done = true)
      ∨ (∃ v rest, s.inputs = .access (.write 0x004 .w4 v) :: rest ∧ v.getLsbD 1 = true)
      ∨ ∃ rest, s.inputs = .powerOnReset :: rest

/-! ## What every command does -/

/-- R65, R120: what every completion writes to `STATUS`, `ERRCODE` and the latched word, whatever the command; the
interrupt output is then active exactly when `IRQ_EN` is 1. -/
def Obligations.CompletionWritesStatusAndErrcode : Prop :=
  ∀ (i : Instr) (s t : State), exec i s = .next t →
    t.busy = false ∧ t.done = true ∧ t.cmdWord = 0#32
      ∧ (t.err = true ↔ t.errcode ≠ .none) ∧ (t.authFail = true ↔ t.errcode = .auth) ∧ irq t = s.irqEn

/-- R114: after an error completion, of a command or of a word that is none, the state is the state at acceptance but for
`STATUS`, `ERRCODE` and the latched word. -/
def Obligations.ErrorCompletionIsPrecise : Prop :=
  ∀ s t : State, (completion s = .next t ∨ ∃ i, exec i s = .next t) → t.errcode ≠ .none →
    t = { s with errcode := t.errcode, err := true, authFail := t.errcode == .auth, done := true, busy := false,
                 cmdWord := 0#32 }

/-- R112, column "raised by": each command reports only its own codes; SEAL and OPEN never report `E_COUNTER`. -/
def Obligations.EachCommandRaisesOnlyItsErrors : Prop :=
  ∀ (i : Instr) (s t : State), exec i s = .next t → t.errcode ≠ .none →
    (t.errcode = .aliased ∧ ∃ a b c d, i = .qround a b c d)
      ∨ (t.errcode = .macState ∧ (i = .macUpdate ∨ i = .macFinal))
      ∨ (t.errcode = .range ∧ (i = .xor ∨ i = .macUpdate ∨ i = .mac ∨ i = .aeadSeal ∨ i = .aeadOpen))
      ∨ (t.errcode = .overlap ∧ (i = .xor ∨ i = .aeadSeal ∨ i = .aeadOpen))
      ∨ (t.errcode = .counter ∧ i = .xor)
      ∨ (t.errcode = .auth ∧ i = .aeadOpen)

/-- Frame of INIT, QROUND, DROUND, PERMUTE and BLOCK (40_permutation.md section 3, R90): `STATE` alone may change, in
QROUND only its four words, and no buffer byte. -/
def Obligations.FrameOfStateCommands : Prop :=
  ∀ (i : Instr) (s t : State), exec i s = .next t →
    (i = .init ∨ i = .dround ∨ i = .permute ∨ i = .block ∨ ∃ a b c d, i = .qround a b c d) →
    commandsLeave s t ∧ t.mackey = s.mackey ∧ t.tag = s.tag ∧ sameSession s t ∧ sameBuffer s t
      ∧ ∀ a b c d (k : Fin 16), i = .qround a b c d → k ≠ a → k ≠ b → k ≠ c → k ≠ d → t.state[k] = s.state[k]

/-- Frame of MAC_INIT, MAC_UPDATE, MAC_FINAL, MAC and KEYGEN: which of `MACKEY`, `TAG` and the session each may write
(R69's column "writes"); never `STATE` and never a buffer byte. -/
def Obligations.FrameOfMacAndKeyCommands : Prop :=
  ∀ (i : Instr) (s t : State), exec i s = .next t →
    (i = .macInit ∨ i = .macUpdate ∨ i = .macFinal ∨ i = .mac ∨ i = .keygen) →
    commandsLeave s t ∧ t.state = s.state ∧ sameBuffer s t
      ∧ (i ≠ .keygen → t.mackey = s.mackey)
      ∧ (i ≠ .macFinal → i ≠ .mac → t.tag = s.tag)
      ∧ (i = .mac ∨ i = .keygen → sameSession s t)
      ∧ (i = .macUpdate → t.macActive = s.macActive ∧ t.macR = s.macR ∧ t.macS = s.macS)

/-- Frame of XOR, SEAL and OPEN: no byte outside `[DST, DST + LEN)` changes, `TAG` only in SEAL, and never `STATE`,
`MACKEY` or the session (R91, R110, R111). -/
def Obligations.FrameOfBufferCommands : Prop :=
  ∀ (i : Instr) (s t : State), exec i s = .next t → (i = .xor ∨ i = .aeadSeal ∨ i = .aeadOpen) →
    commandsLeave s t ∧ t.state = s.state ∧ t.mackey = s.mackey ∧ sameSession s t ∧ sameOutsideOutput s t
      ∧ (i ≠ .aeadSeal → t.tag = s.tag)

/-! ## Permutation core -/

/-- R83: INIT loads the constant, the key, the counter and the nonce, and changes nothing else. -/
def Obligations.InitLoadsConstantKeyCounterNonce : Prop :=
  ∀ s : State, ∃ t, exec .init s = .next t
    ∧ t.state[0] = 0x61707865#32 ∧ t.state[1] = 0x3320646E#32 ∧ t.state[2] = 0x79622D32#32
    ∧ t.state[3] = 0x6B206574#32
    ∧ (∀ j : Fin 8, t.state[4 + j.val] = s.key[j])
    ∧ t.state[12] = s.counter
    ∧ (∀ j : Fin 3, t.state[13 + j.val] = s.nonce[j])
    ∧ t = { s with state := t.state, errcode := .none, err := false, authFail := false, done := true, busy := false,
                   cmdWord := 0#32 }

/-- R75, R84: QROUND with pairwise distinct indices performs the twelve steps on its four words, in place, and changes
nothing else. -/
def Obligations.QroundPerformsTheQuarterRound : Prop :=
  ∀ (s : State) (qa qb qc qd : Fin 16),
    qa ≠ qb → qa ≠ qc → qa ≠ qd → qb ≠ qc → qb ≠ qd → qc ≠ qd →
    let a1 := s.state[qa] + s.state[qb]
    let d1 := (s.state[qd] ^^^ a1).rotateLeft 16
    let c1 := s.state[qc] + d1
    let b1 := (s.state[qb] ^^^ c1).rotateLeft 12
    let a2 := a1 + b1
    let d2 := (d1 ^^^ a2).rotateLeft 8
    let c2 := c1 + d2
    let b2 := (b1 ^^^ c2).rotateLeft 7
    ∃ t, exec (.qround qa qb qc qd) s = .next t
      ∧ t.state[qa] = a2 ∧ t.state[qb] = b2 ∧ t.state[qc] = c2 ∧ t.state[qd] = d2
      ∧ (∀ k : Fin 16, k ≠ qa → k ≠ qb → k ≠ qc → k ≠ qd → t.state[k] = s.state[k])
      ∧ t = { s with state := t.state, errcode := .none, err := false, authFail := false, done := true, busy := false,
                     cmdWord := 0#32 }

/-- R84: QROUND with two equal indices completes with `E_ALIAS` and leaves `STATE` and everything else unchanged. -/
def Obligations.QroundWithEqualIndicesRaisesAlias : Prop :=
  ∀ (s : State) (qa qb qc qd : Fin 16),
    (qa = qb ∨ qa = qc ∨ qa = qd ∨ qb = qc ∨ qb = qd ∨ qc = qd) →
    exec (.qround qa qb qc qd) s =
      .next { s with errcode := .aliased, err := true, authFail := false, done := true, busy := false,
                     cmdWord := 0#32 }

/-- R77: quarter-rounds on disjoint groups of words may be performed in either order. -/
def Obligations.DisjointQuarterRoundsCommute : Prop :=
  ∀ (S : Vector Word 16) (a b c d e f g h : Fin 16), [a, b, c, d, e, f, g, h].Nodup →
    quarterRoundAt (quarterRoundAt S a b c d) e f g h = quarterRoundAt (quarterRoundAt S e f g h) a b c d

/-- R76, R85: DROUND leaves the `STATE` that the eight QROUNDs of its column and diagonal groups leave one after the
other, and changes nothing else. -/
def Obligations.DroundIsEightQrounds : Prop :=
  ∀ s : State, ∃ t, exec .dround s = .next t
    ∧ (∃ s1 s2 s3 s4 s5 s6 s7 s8 : State,
        exec (.qround 0 4 8 12) s = .next s1 ∧ exec (.qround 1 5 9 13) s1 = .next s2
          ∧ exec (.qround 2 6 10 14) s2 = .next s3 ∧ exec (.qround 3 7 11 15) s3 = .next s4
          ∧ exec (.qround 0 5 10 15) s4 = .next s5 ∧ exec (.qround 1 6 11 12) s5 = .next s6
          ∧ exec (.qround 2 7 8 13) s6 = .next s7 ∧ exec (.qround 3 4 9 14) s7 = .next s8
          ∧ t.state = s8.state)
    ∧ t = { s with state := t.state, errcode := .none, err := false, authFail := false, done := true, busy := false,
                   cmdWord := 0#32 }

/-- R78, R86: PERMUTE leaves in each word the word after ten double rounds plus the original word modulo 2^32, and changes
nothing else. -/
def Obligations.PermuteIsTenDoubleRoundsPlusOriginal : Prop :=
  ∀ s : State, ∃ t, exec .permute s = .next t
    ∧ (∀ k : Fin 16, t.state[k].toNat = ((doubleRound^[10] s.state)[k].toNat + s.state[k].toNat) % 2 ^ 32)
    ∧ t = { s with state := t.state, errcode := .none, err := false, authFail := false, done := true, busy := false,
                   cmdWord := 0#32 }

/-! ## Stream cipher -/

/-- R90: BLOCK leaves the state that INIT followed by PERMUTE leaves. -/
def Obligations.BlockIsInitThenPermute : Prop :=
  ∀ s : State, ∃ t u, exec .init s = .next t ∧ exec .permute t = .next u ∧ exec .block s = .next u

/-- R91, R87: XOR, when its checks pass and its message is written, writes each message byte exclusive-or its keystream
byte at `DST`, succeeds, and changes nothing else. -/
def Obligations.XorWritesMessageXorKeystream : Prop :=
  ∀ (s : State) (D : List Byte),
    inBuffer s s.src s.len → inBuffer s s.dst s.len → ¬ overlapsPartly s.src s.dst s.len →
    counterStays s.counter.toNat s.len → D.length = s.len.toNat → holdsBytes s.mem s.src.toNat D →
    ∃ t, exec .xor s = .next t
      ∧ (∀ j (h : j < D.length),
          readByte t.mem (s.dst.toNat + j) = some (D[j] ^^^ keystreamByte s.key s.nonce s.counter.toNat j))
      ∧ sameOutsideOutput s t
      ∧ t = { s with mem := t.mem, errcode := .none, err := false, authFail := false, done := true, busy := false,
                     cmdWord := 0#32 }

/-- R91, R118 (with R89, R116, R117): XOR's checks in their order; the first that fails is reported and nothing else
changes. -/
def Obligations.XorReportsItsFirstFailingCheck : Prop :=
  ∀ s : State,
    (¬ (inBuffer s s.src s.len ∧ inBuffer s s.dst s.len) → exec .xor s = .next (complete .range s))
      ∧ (inBuffer s s.src s.len → inBuffer s s.dst s.len → overlapsPartly s.src s.dst s.len →
          exec .xor s = .next (complete .overlap s))
      ∧ (inBuffer s s.src s.len → inBuffer s s.dst s.len → ¬ overlapsPartly s.src s.dst s.len →
          ¬ counterStays s.counter.toNat s.len → exec .xor s = .next (complete .counter s))

/-- R55, R117: on a state that passes XOR's checks, reading and writing byte by byte from the front leaves every byte as
XOR, which reads all its input first, leaves it. -/
def Obligations.XorEqualsFrontToBackStreaming : Prop :=
  ∀ s t : State, exec .xor s = .next t → t.errcode = .none →
    ∃ m, streamFrontToBack s.key s.nonce s.counter.toNat s.src.toNat s.dst.toNat 0 s.len.toNat s.mem = some m
      ∧ ∀ a, readByte m a = readByte t.mem a

/-- R88: counter-mode combination with the same key, nonce and counter is its own inverse. -/
def Obligations.StreamIsItsOwnInverse : Prop :=
  ∀ (K : Vector Word 8) (N : Vector Word 3) (c : Nat) (D : List Byte), stream K N c (stream K N c D) = D

/-! ## Authenticator -/

/-- R93, R98: MAC_INIT opens a session with the clamped multiplier, the unclamped mask and accumulator 0, and changes
nothing else. -/
def Obligations.MacInitOpensAClampedSession : Prop :=
  ∀ s : State, ∃ t, exec .macInit s = .next t
    ∧ t.macActive = true ∧ t.macAcc = 0#130
    ∧ (∀ j : Fin 128,
        t.macR.getLsbD j.val = ((s.mackey[j.val / 32]).getLsbD (j.val % 32) && !clampedBit j.val)
          ∧ t.macS.getLsbD j.val = (s.mackey[4 + j.val / 32]).getLsbD (j.val % 32))
    ∧ t = { s with macActive := true, macAcc := 0#130, macR := t.macR, macS := t.macS, errcode := .none, err := false,
                   authFail := false, done := true, busy := false, cmdWord := 0#32 }

/-- R94: absorbing nothing changes nothing; absorbing a block (16 bytes, or the shorter rest) appends the byte 0x01,
adds, multiplies and reduces modulo 2^130 - 5. -/
def Obligations.AbsorbStepsBlockByBlock : Prop :=
  ∀ acc r : Nat,
    absorb acc r [] = acc
      ∧ ∀ b rest : List Byte, 1 ≤ b.length → b.length ≤ 16 → (b.length = 16 ∨ rest = []) →
          absorb acc r (b ++ rest) = absorb (((acc + (leInt b + 2 ^ (8 * b.length))) * r) % (2 ^ 130 - 5)) r rest

/-- R99: absorbing a message in two parts is absorbing it whole when the first part's length is a multiple of 16. -/
def Obligations.AbsorbInPartsIsAbsorbWhole : Prop :=
  ∀ (acc r : Nat) (a b : List Byte), a.length % 16 = 0 → absorb (absorb acc r a) r b = absorb acc r (a ++ b)

/-- R99: MAC_UPDATE in an open session with its message in range and written absorbs it, leaves the accumulator reduced
when it absorbs a block, and changes nothing else. -/
def Obligations.MacUpdateAbsorbsItsMessage : Prop :=
  ∀ (s : State) (D : List Byte),
    s.macActive = true → inBuffer s s.src s.len → D.length = s.len.toNat → holdsBytes s.mem s.src.toNat D →
    ∃ t, exec .macUpdate s = .next t
      ∧ t.macAcc.toNat = absorb s.macAcc.toNat s.macR.toNat D
      ∧ (D ≠ [] → t.macAcc.toNat < 2 ^ 130 - 5)
      ∧ t = { s with macAcc := t.macAcc, errcode := .none, err := false, authFail := false, done := true, busy := false,
                     cmdWord := 0#32 }

/-- R99, R100, R101, R118: without a session MAC_UPDATE and MAC_FINAL report `E_MAC_STATE`, MAC_UPDATE before its range
check; a message outside the buffer is `E_RANGE` in MAC_UPDATE with a session and in MAC. Nothing else changes. -/
def Obligations.MacCommandsReportTheirFirstFailingCheck : Prop :=
  ∀ s : State,
    (s.macActive = false → exec .macUpdate s = .next (complete .macState s))
      ∧ (s.macActive = false → exec .macFinal s = .next (complete .macState s))
      ∧ (s.macActive = true → ¬ inBuffer s s.src s.len → exec .macUpdate s = .next (complete .range s))
      ∧ (¬ inBuffer s s.src s.len → exec .mac s = .next (complete .range s))

/-- R95, R100: MAC_FINAL in an open session writes the low 128 bits of accumulator plus mask, little-endian, to `TAG`,
zeroes and closes the session, and changes nothing else. -/
def Obligations.MacFinalWritesTagAndClosesSession : Prop :=
  ∀ s : State, s.macActive = true → ∃ t, exec .macFinal s = .next t
    ∧ (t.tag[0].toNat + 2 ^ 32 * t.tag[1].toNat + 2 ^ 64 * t.tag[2].toNat + 2 ^ 96 * t.tag[3].toNat
        = (s.macAcc.toNat + s.macS.toNat) % 2 ^ 128)
    ∧ t = { s with tag := t.tag, macActive := false, macR := 0#128, macS := 0#128, macAcc := 0#130, errcode := .none,
                   err := false, authFail := false, done := true, busy := false, cmdWord := 0#32 }

/-- R101: MAC, with its message in range and written, leaves the tag that MAC_INIT, MAC_UPDATE and MAC_FINAL leave on the
same key and bytes; unlike them it leaves the session as it was. -/
def Obligations.MacEqualsInitUpdateFinal : Prop :=
  ∀ (s : State) (D : List Byte),
    inBuffer s s.src s.len → D.length = s.len.toNat → holdsBytes s.mem s.src.toNat D →
    ∃ t t1 t2 t3, exec .mac s = .next t
      ∧ exec .macInit s = .next t1 ∧ exec .macUpdate t1 = .next t2 ∧ exec .macFinal t2 = .next t3
      ∧ t3.errcode = .none ∧ t.tag = t3.tag
      ∧ t = { s with tag := t.tag, errcode := .none, err := false, authFail := false, done := true, busy := false,
                     cmdWord := 0#32 }

/-! ## AEAD -/

/-- R102, R109: KEYGEN writes to `MACKEY` the first eight words of the block at counter 0, which are the bytes of the
one-time key, and changes nothing else. -/
def Obligations.KeygenWritesFirstWordsOfBlockZero : Prop :=
  ∀ s : State, ∃ t u, exec .keygen s = .next t ∧ exec .block { s with counter := 0#32 } = .next u
    ∧ (∀ j : Fin 8, t.mackey[j] = u.state[j.val])
    ∧ mackeyBytes t = oneTimeKey s.key s.nonce
    ∧ t = { s with mackey := t.mackey, errcode := .none, err := false, authFail := false, done := true, busy := false,
                   cmdWord := 0#32 }

/-- R103: the framing buffer is a multiple of 16 bytes, at least 16, and holds in order the associated data, zeros to the
next multiple of 16, the ciphertext, zeros to the next multiple of 16, and the two lengths as 8 little-endian bytes. -/
def Obligations.FrameIsPaddedDataAndLengths : Prop :=
  ∀ aad ct : List Byte, ∃ p q : Nat, p < 16 ∧ q < 16 ∧ (aad.length + p) % 16 = 0 ∧ (ct.length + q) % 16 = 0
    ∧ frame aad ct = aad ++ List.replicate p 0#8 ++ ct ++ List.replicate q 0#8 ++ leBytes 8 aad.length
        ++ leBytes 8 ct.length
    ∧ (frame aad ct).length % 16 = 0 ∧ 16 ≤ (frame aad ct).length

/-- R15: the constant-time comparison of two 16-byte strings is true exactly when they are equal. -/
def Obligations.CtEqualIsEquality : Prop :=
  ∀ a b : List Byte, a.length = 16 → b.length = 16 → (ctEqual16 a b = true ↔ a = b)

/-- R107: opening what seal made gives the plaintext back. -/
def Obligations.OpenOfSealIsThePlaintext : Prop :=
  ∀ (K : Vector Word 8) (N : Vector Word 3) (pt aad : List Byte),
    openF K N (sealF K N pt aad).1 (sealF K N pt aad).2 aad = some pt

/-- R104, R110: SEAL, when its checks pass and its operands are written, writes the ciphertext at `DST` and to `TAG` the
tag over the framed associated data and ciphertext, and changes nothing else. -/
def Obligations.SealWritesCiphertextAndTag : Prop :=
  ∀ (s : State) (P A C : List Byte),
    aeadInBuffer s → ¬ aeadOverlaps s →
    P.length = s.len.toNat → holdsBytes s.mem s.src.toNat P →
    A.length = s.aadlen.toNat → holdsBytes s.mem s.aad.toNat A →
    isStreamOf s.key s.nonce 1 P C →
    ∃ t, exec .aeadSeal s = .next t
      ∧ holdsBytes t.mem s.dst.toNat C ∧ sameOutsideOutput s t
      ∧ tagBytes t = poly (frame A C) (oneTimeKey s.key s.nonce)
      ∧ t = { s with mem := t.mem, tag := t.tag, errcode := .none, err := false, authFail := false, done := true,
                     busy := false, cmdWord := 0#32 }

/-- R105, R111: OPEN, when its checks pass, its operands are written and the tag matches, writes the plaintext at `DST`,
succeeds, and changes nothing else. -/
def Obligations.OpenWithMatchingTagWritesPlaintext : Prop :=
  ∀ (s : State) (C A P : List Byte),
    aeadInBuffer s → ¬ aeadOverlaps s →
    C.length = s.len.toNat → holdsBytes s.mem s.src.toNat C →
    A.length = s.aadlen.toNat → holdsBytes s.mem s.aad.toNat A →
    isStreamOf s.key s.nonce 1 C P →
    tagBytes s = poly (frame A C) (oneTimeKey s.key s.nonce) →
    ∃ t, exec .aeadOpen s = .next t
      ∧ holdsBytes t.mem s.dst.toNat P ∧ sameOutsideOutput s t
      ∧ t = { s with mem := t.mem, errcode := .none, err := false, authFail := false, done := true, busy := false,
                     cmdWord := 0#32 }

/-- R105, R111, R114: OPEN with a tag that differs fails closed: `E_AUTH`, and no buffer byte and no register but `STATUS`
and `ERRCODE` changes. -/
def Obligations.OpenWithWrongTagFailsClosed : Prop :=
  ∀ (s : State) (C A : List Byte),
    aeadInBuffer s → ¬ aeadOverlaps s →
    C.length = s.len.toNat → holdsBytes s.mem s.src.toNat C →
    A.length = s.aadlen.toNat → holdsBytes s.mem s.aad.toNat A →
    tagBytes s ≠ poly (frame A C) (oneTimeKey s.key s.nonce) →
    exec .aeadOpen s = .next { s with errcode := .auth, err := true, authFail := true, done := true, busy := false,
                                      cmdWord := 0#32 }

/-- R110, R111, R118: SEAL's and OPEN's range check comes before their overlap check; the one that fails first is reported
and nothing else changes. (Their counter check never fails: see EachCommandRaisesOnlyItsErrors.) -/
def Obligations.SealAndOpenReportTheirFirstFailingCheck : Prop :=
  ∀ (i : Instr) (s : State), (i = .aeadSeal ∨ i = .aeadOpen) →
    (¬ aeadInBuffer s → exec i s = .next (complete .range s))
      ∧ (aeadInBuffer s → aeadOverlaps s → exec i s = .next (complete .overlap s))

/-- R104, R105, R107 on the machine: after a SEAL, an OPEN of its ciphertext into another range with the tag it wrote
succeeds and puts the plaintext there. -/
def Obligations.OpenAfterSealRestoresThePlaintext : Prop :=
  ∀ (s t : State) (P A : List Byte) (d : Word),
    P.length = s.len.toNat → holdsBytes s.mem s.src.toNat P →
    A.length = s.aadlen.toNat → holdsBytes s.mem s.aad.toNat A →
    exec .aeadSeal s = .next t → t.errcode = .none →
    let u : State := { t with src := s.dst, dst := d }
    aeadInBuffer u → ¬ aeadOverlaps u →
    ∃ v, exec .aeadOpen u = .next v ∧ v.errcode = .none ∧ v.authFail = false ∧ holdsBytes v.mem d.toNat P

/-! ## Buffer memory and unwritten bytes -/

/-- R56, U1 (log 1): a command that passes its checks, and an idle host read, fault on the first byte they read that
nothing has written; SEAL and OPEN read the message before the associated data. -/
def Obligations.ReadingAnUnwrittenByteFaults : Prop :=
  ∀ (s : State) (k : Nat),
    (firstUnwritten s.mem s.src.toNat s.len.toNat k →
      (inBuffer s s.src s.len → exec .mac s = .fault (.unwrittenByte (s.src.toNat + k)))
        ∧ (s.macActive = true → inBuffer s s.src s.len →
            exec .macUpdate s = .fault (.unwrittenByte (s.src.toNat + k)))
        ∧ (inBuffer s s.src s.len → inBuffer s s.dst s.len → ¬ overlapsPartly s.src s.dst s.len →
            counterStays s.counter.toNat s.len → exec .xor s = .fault (.unwrittenByte (s.src.toNat + k)))
        ∧ (aeadInBuffer s → ¬ aeadOverlaps s →
            exec .aeadSeal s = .fault (.unwrittenByte (s.src.toNat + k))
              ∧ exec .aeadOpen s = .fault (.unwrittenByte (s.src.toNat + k))))
      ∧ (∀ M : List Byte, M.length = s.len.toNat → holdsBytes s.mem s.src.toNat M →
          firstUnwritten s.mem s.aad.toNat s.aadlen.toNat k → aeadInBuffer s → ¬ aeadOverlaps s →
          exec .aeadSeal s = .fault (.unwrittenByte (s.aad.toNat + k))
            ∧ exec .aeadOpen s = .fault (.unwrittenByte (s.aad.toNat + k)))
      ∧ (∀ (off : Nat) (w : Width), s.busy = false → 0x1000 ≤ off → off < 0x1000 + s.cfg.bufBytes →
          off % widthBytes w = 0 → firstUnwritten s.mem (off - 0x1000) (widthBytes w) k →
          busRead s off w = .error (.unwrittenByte (off - 0x1000 + k)))

/-- R47, R48: an idle host write to the buffer puts byte `j` of the data at byte `j` of its range and changes nothing
else; a read of the same place and width gives the data back. -/
def Obligations.BufferWriteIsLittleEndianAndReadsBack : Prop :=
  ∀ (s : State) (off : Nat) (w : Width) (v : Word),
    s.busy = false → 0x1000 ≤ off → off < 0x1000 + s.cfg.bufBytes → off % widthBytes w = 0 →
    ∃ t, busWrite s off w v = (t, { error := false, data := none })
      ∧ (∀ j, j < widthBytes w → readByte t.mem (off - 0x1000 + j) = some (v.extractLsb' (8 * j) 8))
      ∧ (∀ a, a < off - 0x1000 ∨ off - 0x1000 + widthBytes w ≤ a → readByte t.mem a = readByte s.mem a)
      ∧ t = { s with mem := t.mem }
      ∧ busRead t off w =
          .ok { error := false, data := some (BitVec.ofNat 32 (v.toNat % 2 ^ (8 * widthBytes w))) }

/-! ## Host accesses -/

/-- R48, R49: an access that is not legal gets a bus error, with data 0 for a read, and changes nothing. -/
def Obligations.IllegalAccessIsABusErrorWithoutEffect : Prop :=
  ∀ (s : State) (off : Nat) (w : Width) (v : Word),
    ¬ ((off < 0x1000 ∧ w = .w4 ∧ off % 4 = 0)
        ∨ (0x1000 ≤ off ∧ off < 0x1000 + s.cfg.bufBytes ∧ off % widthBytes w = 0)) →
    busRead s off w = .ok { error := true, data := some 0#32 }
      ∧ busWrite s off w v = (s, { error := true, data := none })

/-- R16, R18, R27 to R32, R34 to R37: while idle, a write to a read-write register, or to the write-only `KEY`, sets that
word and changes nothing else; a read-write register then reads the value. -/
def Obligations.ReadWriteRegistersReadBack : Prop :=
  ∀ (s : State) (v : Word), s.busy = false →
    let ok : BusResponse := { error := false, data := none }
    busWrite s 0x014 .w4 v = ({ s with len := v }, ok)
      ∧ busWrite s 0x018 .w4 v = ({ s with src := v }, ok)
      ∧ busWrite s 0x01C .w4 v = ({ s with dst := v }, ok)
      ∧ busWrite s 0x020 .w4 v = ({ s with aad := v }, ok)
      ∧ busWrite s 0x024 .w4 v = ({ s with aadlen := v }, ok)
      ∧ busWrite s 0x028 .w4 v = ({ s with counter := v }, ok)
      ∧ (∀ i : Fin 3, busWrite s (0x02C + 4 * i.val) .w4 v = ({ s with nonce := s.nonce.set i v }, ok))
      ∧ (∀ i : Fin 8, busWrite s (0x040 + 4 * i.val) .w4 v = ({ s with key := s.key.set i v }, ok))
      ∧ (∀ i : Fin 8, busWrite s (0x060 + 4 * i.val) .w4 v = ({ s with mackey := s.mackey.set i v }, ok))
      ∧ (∀ i : Fin 16, busWrite s (0x080 + 4 * i.val) .w4 v = ({ s with state := s.state.set i v }, ok))
      ∧ (∀ i : Fin 4, busWrite s (0x0C0 + 4 * i.val) .w4 v = ({ s with tag := s.tag.set i v }, ok))
      ∧ ∀ off, off % 4 = 0 → (0x014 ≤ off ∧ off ≤ 0x034) ∨ (0x060 ≤ off ∧ off ≤ 0x0CC) →
          busRead (busWrite s off .w4 v).1 off .w4 = .ok { error := false, data := some v }

/-- R16, R21, R26, R38, R39: idle or busy, a reserved offset reads 0, and a write to it, or to a read-only register (`ID`,
`ERRCODE`, `ACC0` to `ACC4`), changes nothing, `WERR` included. -/
def Obligations.ReservedOffsetsReadZeroIgnoreWrites : Prop :=
  ∀ (s : State) (off : Nat) (v : Word), off % 4 = 0 →
    (off = 0x038 ∨ off = 0x03C ∨ (0x0E4 ≤ off ∧ off ≤ 0xFFC) →
      busRead s off .w4 = .ok { error := false, data := some 0#32 }
        ∧ busWrite s off .w4 v = (s, { error := false, data := none }))
      ∧ (off = 0x000 ∨ off = 0x010 ∨ (0x0D0 ≤ off ∧ off ≤ 0x0E0) →
      busWrite s off .w4 v = (s, { error := false, data := none }))

/-- R35, R125: `KEY` reads 0, and no host read of any place depends on the key. -/
def Obligations.KeyIsNeverReadable : Prop :=
  ∀ (s : State) (K : Vector Word 8),
    (∀ i : Fin 8, busRead s (0x040 + 4 * i.val) .w4 = .ok { error := false, data := some 0#32 })
      ∧ ∀ (off : Nat) (w : Width), busRead { s with key := K } off w = busRead s off w

/-- R52: while busy, a legal write to an operand register, `CMD` or the buffer is dropped and sets `WERR`; a write to a
read-only register or a reserved offset changes nothing; a write to `STATUS`, or to `CTRL` without `SRESET`, acts as when
idle (with `SRESET` see AbortLeavesEachByteOldOrNew). -/
def Obligations.WriteWhileBusyIsDroppedAndSetsWerr : Prop :=
  ∀ (s : State) (v : Word), s.busy = true →
    (∀ off, off % 4 = 0 → (off = 0x00C ∨ (0x014 ≤ off ∧ off ≤ 0x034) ∨ (0x040 ≤ off ∧ off ≤ 0x0CC)) →
      busWrite s off .w4 v = ({ s with werr := true }, { error := false, data := none }))
      ∧ (∀ off w, 0x1000 ≤ off → off < 0x1000 + s.cfg.bufBytes → off % widthBytes w = 0 →
      busWrite s off w v = ({ s with werr := true }, { error := false, data := none }))
      ∧ (∀ off, off % 4 = 0 →
      (off = 0x000 ∨ off = 0x010 ∨ off = 0x038 ∨ off = 0x03C ∨ (0x0D0 ≤ off ∧ off ≤ 0xFFC)) →
      busWrite s off .w4 v = (s, { error := false, data := none }))
      ∧ busWrite s 0x008 .w4 v = (writeStatus v s, { error := false, data := none })
      ∧ (v.getLsbD 1 = false →
      busWrite s 0x004 .w4 v = ({ s with irqEn := v.getLsbD 0 }, { error := false, data := none }))

/-- R53: while busy, `MACKEY`, `STATE`, `TAG`, `ACC` and the buffer read 0, written or not; every other register reads as
when idle. -/
def Obligations.OutputsReadZeroWhileBusy : Prop :=
  ∀ s : State, s.busy = true →
    (∀ off, off % 4 = 0 → 0x060 ≤ off → off ≤ 0x0E0 →
      busRead s off .w4 = .ok { error := false, data := some 0#32 })
      ∧ (∀ off w, 0x1000 ≤ off → off < 0x1000 + s.cfg.bufBytes → off % widthBytes w = 0 →
      busRead s off w = .ok { error := false, data := some 0#32 })
      ∧ ∀ r : Reg, regOffset r < 0x060 →
          busRead s (regOffset r) .w4 = .ok { error := false, data := some (readReg s r) }

/-- R23, R26: a write to `STATUS`, idle or busy, clears `DONE`, `ERR` and `WERR` where it has a 1 and changes nothing
else, `ERRCODE` included; `STATUS` reads its six flags in bits 5:0. R112, R21, R25, R38: `ERRCODE` reads the code's number,
`ID` reads `ID_VALUE`, `CMD` reads 0, and while idle `ACC` i reads bits 32i+31 to 32i of the accumulator. -/
def Obligations.StatusIsWriteOneToClear : Prop :=
  ∀ (s : State) (v : Word), ∃ t, busWrite s 0x008 .w4 v = (t, { error := false, data := none })
    ∧ t = { s with done := s.done && !v.getLsbD 1, err := s.err && !v.getLsbD 2, werr := s.werr && !v.getLsbD 4 }
    ∧ (∃ d, busRead s 0x008 .w4 = .ok { error := false, data := some d }
        ∧ d.getLsbD 0 = s.busy ∧ d.getLsbD 1 = s.done ∧ d.getLsbD 2 = s.err ∧ d.getLsbD 3 = s.authFail
        ∧ d.getLsbD 4 = s.werr ∧ d.getLsbD 5 = s.macActive ∧ d.toNat < 2 ^ 6)
    ∧ (∃ n : Word, busRead s 0x010 .w4 = .ok { error := false, data := some n }
        ∧ (s.errcode, n) ∈ [(ErrCode.none, 0x00#32), (.opcode, 0x01#32), (.rsvd, 0x02#32), (.aliased, 0x03#32),
            (.macState, 0x04#32), (.range, 0x05#32), (.overlap, 0x06#32), (.counter, 0x07#32), (.auth, 0x08#32)])
    ∧ busRead s 0x000 .w4 = .ok { error := false, data := some s.cfg.idValue }
    ∧ busRead s 0x00C .w4 = .ok { error := false, data := some 0#32 }
    ∧ (s.busy = false → ∀ i : Fin 5, busRead s (0x0D0 + 4 * i.val) .w4 =
        .ok { error := false, data := some (BitVec.ofNat 32 (s.macAcc.toNat / 2 ^ (32 * i.val) % 2 ^ 32)) })

/-- R22, R120: a write to `CTRL` without `SRESET`, idle or busy, sets `IRQ_EN` from bit 0 and changes nothing else; the
interrupt output is then active exactly when that bit and `DONE` are 1. -/
def Obligations.CtrlWriteSetsInterruptEnable : Prop :=
  ∀ (s : State) (v : Word), v.getLsbD 1 = false →
    ∃ t, busWrite s 0x004 .w4 v = (t, { error := false, data := none })
      ∧ t = { s with irqEn := v.getLsbD 0 }
      ∧ busRead t 0x004 .w4 = .ok { error := false, data := some (BitVec.ofNat 32 (v.toNat % 2)) }
      ∧ (irq t = true ↔ v.getLsbD 0 = true ∧ s.done = true)

/-- R51: a host read changes nothing but the host's own record of the answers. R73 (log 9): a `wait` is such reads of
`STATUS`: one that reads `BUSY` 1 goes on, and the one that reads `BUSY` 0 ends it. -/
def Obligations.HostReadHasNoSideEffect : Prop :=
  (∀ (s t : State) (off : Nat) (w : Width) (rest : List Input),
    s.inputs = .access (.read off w) :: rest → step s = .next t →
    ∃ r, busRead { s with inputs := rest } off w = .ok r ∧ r.error = false
      ∧ t = { s with inputs := rest, responses := r :: s.responses })
    ∧ ∀ (s : State) (n : Nat) (rest : List Input),
      (s.busy = true → s.inputs = .waitIdle (n + 1) :: rest →
        ∃ d r, busRead s 0x008 .w4 = .ok r ∧ r = { error := false, data := some d } ∧ d.getLsbD 0 = true
          ∧ step s = .next { s with inputs := .waitIdle n :: rest, responses := r :: s.responses })
      ∧ (s.busy = false → s.inputs = .waitIdle n :: rest →
        ∃ d r, busRead s 0x008 .w4 = .ok r ∧ r = { error := false, data := some d } ∧ d.getLsbD 0 = false
          ∧ step s = .next { s with inputs := rest, responses := r :: s.responses })

/-! ## Reset -/

/-- R42, R133: at power-on every register reads 0 but `ID`, which reads `ID_VALUE`; the hidden state is 0, the interrupt
output is deasserted, and no buffer byte has a value; a power-on reset of a running block leaves just that, whatever it
was doing. (The model's own fields: the abort counter goes up, the lists stay; logs 3, 4, 5.) -/
def Obligations.PowerOnResetValues : Prop :=
  ∀ c : Config,
    (∀ r : Reg, readReg (State.powerOn c) r = if r = .id then c.idValue else 0#32)
      ∧ (∀ i : Fin 8, (State.powerOn c).key[i] = 0#32)
      ∧ (State.powerOn c).cmdWord = 0#32 ∧ (State.powerOn c).macActive = false ∧ (State.powerOn c).macR = 0#128
      ∧ (State.powerOn c).macS = 0#128 ∧ (State.powerOn c).macAcc = 0#130
      ∧ irq (State.powerOn c) = false ∧ (∀ a, readByte (State.powerOn c).mem a = none)
      ∧ ∀ (s : State) (rest : List Input), s.cfg = c → s.inputs = .powerOnReset :: rest →
          step s = .next { State.powerOn c with freeTick := s.freeTick + 1, inputs := rest, responses := s.responses }

/-- R134, R22: a write to `CTRL` with `SRESET` while idle gives every register and hidden state its reset value, the
`IRQ_EN` bit of the write discarded, and keeps the buffer memory. The model's own counter and lists are no part of it. -/
def Obligations.SoftResetWhileIdleKeepsTheBuffer : Prop :=
  ∀ (s : State) (v : Word), s.busy = false → v.getLsbD 1 = true →
    busWrite s 0x004 .w4 v =
      ({ State.powerOn s.cfg with mem := s.mem, freeTick := s.freeTick + 1, inputs := s.inputs,
                                      responses := s.responses },
           { error := false, data := none })

/-- R134, R135 (log 5, log 8): a soft reset while a command is pending never faults and resets every register and hidden
state, and each buffer byte keeps its value, or holds the value the command would have written there: the latter only
inside the output range of an XOR, SEAL or OPEN that would have completed without error. Where an operand byte has never
been written, the value it would have read is one the spec leaves open: `m` is a buffer with some value there. -/
def Obligations.AbortLeavesEachByteOldOrNew : Prop :=
  ∀ (s : State) (v : Word), s.busy = true → v.getLsbD 1 = true →
    ∃ (t : State) (m : Memory), busWrite s 0x004 .w4 v = (t, { error := false, data := none })
      ∧ t = { State.powerOn s.cfg with mem := t.mem, freeTick := s.freeTick + 1, inputs := s.inputs,
                                       responses := s.responses }
      ∧ keepsWritten s.mem m
      ∧ ∀ a, readByte t.mem a = readByte s.mem a
          ∨ ∃ i u, decode s.cmdWord = .ok i ∧ (i = .xor ∨ i = .aeadSeal ∨ i = .aeadOpen)
              ∧ s.dst.toNat ≤ a ∧ a < s.dst.toNat + s.len.toNat
              ∧ exec i { s with mem := m } = .next u ∧ u.errcode = .none ∧ readByte t.mem a = readByte u.mem a
              ∧ ∀ u', exec i s = .next u' → u'.errcode = .none ∧ readByte t.mem a = readByte u'.mem a

/-! ## Rules about the whole machine -/

/-- The invariant holds at reset. -/
def Obligations.ResetMeetsTheInvariant : Prop := State.reset.Inv

/-- R6, R23, R38, R40, R44, R64, R65, R93, R99, R100: every step keeps the invariant, from every state that meets it. -/
def Obligations.StepKeepsTheInvariant : Prop := ∀ s t : State, s.Inv → step s = .next t → t.Inv

/-- R119, R23: `WERR` stays 1 until the host writes a 1 to it or a reset. -/
def Obligations.WerrIsSticky : Prop :=
  ∀ s t : State, step s = .next t → s.werr = true →
    t.werr = true
      ∨ (∃ v rest, s.inputs = .access (.write 0x008 .w4 v) :: rest ∧ v.getLsbD 4 = true)
      ∨ (∃ v rest, s.inputs = .access (.write 0x004 .w4 v) :: rest ∧ v.getLsbD 1 = true)
      ∨ ∃ rest, s.inputs = .powerOnReset :: rest

/-- R35: `KEY` changes only by a host write to it while idle, or by a reset. -/
def Obligations.OnlyHostAndResetsWriteTheKey : Prop :=
  ∀ s t : State, step s = .next t → t.key ≠ s.key →
    (∃ (i : Fin 8) (v : Word) (rest : List Input),
        s.inputs = .access (.write (0x040 + 4 * i.val) .w4 v) :: rest ∧ s.busy = false ∧ t.key = s.key.set i v)
      ∨ (∃ v rest, s.inputs = .access (.write 0x004 .w4 v) :: rest ∧ v.getLsbD 1 = true)
      ∨ ∃ rest, s.inputs = .powerOnReset :: rest

/-- R143 (log 6): the latency of INIT, DROUND, PERMUTE, BLOCK, KEYGEN, MAC_INIT and QROUND depends on nothing but the
command word, `LEN` and `AADLEN`, whatever keys, data and buffers two blocks hold. -/
def Obligations.LatencyIgnoresSecretData : Prop :=
  ∀ (s t : State) (i : Instr), decode s.cmdWord = .ok i →
    (i = .init ∨ i = .dround ∨ i = .permute ∨ i = .block ∨ i = .keygen ∨ i = .macInit ∨ ∃ a b c d, i = .qround a b c d) →
    t.cmdWord = s.cmdWord → t.len = s.len → t.aadlen = s.aadlen →
    completionLatency t = completionLatency s
end

