-- ==== Sys2Proof/Laws/Bytes.lean ====
section
/-! SUPPORT. Byte strings: the spec lemmas of `leInt`, `leBytes`, register groups, chunks and the keystream. -/

namespace Sys2Proof.Machine

/-! ### `le_int` and `le_bytes_N` (R11, R12) -/

@[simp] theorem leBytes_length (n v : Nat) : (leBytes n v).length = n := by
  induction n generalizing v with
  | zero => rfl
  | succ n ih => simp [leBytes, ih]

/-- Byte `i` of `le_bytes_N(v)` is `(v >> 8i) & 0xFF` (R12). -/
theorem leBytes_getElem (n v i : Nat) (h : i < (leBytes n v).length) :
    (leBytes n v)[i] = BitVec.ofNat 8 (v / 256 ^ i) := by
  induction n generalizing v i with
  | zero => simp at h
  | succ n ih =>
    cases i with
    | zero => simp [leBytes]
    | succ i =>
      have h' : i < (leBytes n (v / 256)).length := by simpa using h
      have := ih (v / 256) i h'
      simpa [leBytes, Nat.div_div_eq_div_mul, ← Nat.pow_succ'] using this

@[simp] theorem leInt_nil : leInt [] = 0 := rfl

@[simp] theorem leInt_cons (b : Byte) (bs : List Byte) : leInt (b :: bs) = b.toNat + 256 * leInt bs := rfl

theorem leInt_append (a b : List Byte) : leInt (a ++ b) = leInt a + 256 ^ a.length * leInt b := by
  induction a with
  | nil => simp
  | cons x a ih => simp [ih, Nat.pow_succ]; ring

theorem leInt_lt (bs : List Byte) : leInt bs < 256 ^ bs.length := by
  induction bs with
  | nil => simp
  | cons b bs ih =>
    have := b.isLt
    simp only [leInt_cons, List.length_cons, Nat.pow_succ]
    omega

/-- `le_bytes_N` drops what does not fit (R12). -/
theorem leInt_leBytes (n v : Nat) : leInt (leBytes n v) = v % 256 ^ n := by
  induction n generalizing v with
  | zero => simp [leBytes, Nat.mod_one]
  | succ n ih =>
    have h : v % 256 ^ (n + 1) = v % 256 + 256 * (v / 256 % 256 ^ n) := by rw [Nat.pow_succ', Nat.mod_mul]
    rw [leBytes, leInt_cons, ih, BitVec.toNat_ofNat, h]

theorem leBytes_leInt (bs : List Byte) : leBytes bs.length (leInt bs) = bs := by
  induction bs with
  | nil => rfl
  | cons b bs ih =>
    have hb := b.isLt
    have h1 : (b.toNat + 256 * leInt bs) / 256 = leInt bs := by omega
    have h2 : BitVec.ofNat 8 (b.toNat + 256 * leInt bs) = b := by
      apply BitVec.eq_of_toNat_eq
      simp only [BitVec.toNat_ofNat]
      omega
    simp only [List.length_cons, leBytes, leInt_cons, h1, h2, ih]

/-- Little-endian strings of one length are equal when their numbers are. -/
theorem eq_of_leInt_eq {a b : List Byte} (hl : a.length = b.length) (h : leInt a = leInt b) : a = b := by
  rw [← leBytes_leInt a, ← leBytes_leInt b, hl, h]

/-! ### Words and register groups (R33, R97) -/

@[simp] theorem wordBytes_length (w : Word) : (wordBytes w).length = 4 := leBytes_length _ _

/-- Byte `j` of a word is its bits `8j+7 : 8j` (R33). -/
theorem wordBytes_getElem (w : Word) (j : Nat) (h : j < (wordBytes w).length) :
    (wordBytes w)[j] = w.extractLsb' (8 * j) 8 := by
  simp only [wordBytes, leBytes_getElem]
  apply BitVec.eq_of_toNat_eq
  simp [Nat.shiftRight_eq_div_pow, Nat.pow_mul]

theorem leInt_wordBytes (w : Word) : leInt (wordBytes w) = w.toNat := by
  have := w.isLt
  simp only [wordBytes, leInt_leBytes]
  exact Nat.mod_eq_of_lt (by omega)

@[simp] theorem le32_wordBytes (w : Word) : le32 (wordBytes w) = w := by
  simp [le32, leInt_wordBytes]

theorem wordBytes_le32 (bs : List Byte) (h : bs.length = 4) : wordBytes (le32 bs) = bs := by
  have hlt := leInt_lt bs
  rw [h] at hlt
  have : (le32 bs).toNat = leInt bs := by
    simp only [le32, BitVec.toNat_ofNat]
    exact Nat.mod_eq_of_lt (by omega)
  rw [wordBytes, this, ← h]
  exact leBytes_leInt bs

@[simp] theorem groupBytes_nil : groupBytes [] = [] := rfl

@[simp] theorem groupBytes_cons (w : Word) (ws : List Word) : groupBytes (w :: ws) = wordBytes w ++ groupBytes ws := rfl

@[simp] theorem groupBytes_length (ws : List Word) : (groupBytes ws).length = 4 * ws.length := by
  induction ws with
  | nil => rfl
  | cons w ws ih => simp [ih]; omega

/-- Byte `j` of a register group is byte `j mod 4` of its word `j / 4` (R33). -/
theorem groupBytes_getElem (ws : List Word) (j : Nat) (h : j < (groupBytes ws).length) :
    (groupBytes ws)[j] = (ws[j / 4]'(by simp at h; omega)).extractLsb' (8 * (j % 4)) 8 := by
  induction ws generalizing j with
  | nil => simp at h
  | cons w ws ih =>
    by_cases hj : j < 4
    · have h0 : j / 4 = 0 := by omega
      have h1 : j % 4 = j := by omega
      simp only [groupBytes_cons]
      rw [List.getElem_append_left (by simpa using hj), wordBytes_getElem]
      simp [h0, h1]
    · have h0 : j / 4 = (j - 4) / 4 + 1 := by omega
      have h1 : j % 4 = (j - 4) % 4 := by omega
      simp only [groupBytes_cons]
      rw [List.getElem_append_right (by simp; omega)]
      simp only [wordBytes_length]
      rw [ih (j - 4)]
      simp [h0, h1]

@[simp] theorem mackeyBytes_length (s : State) : (mackeyBytes s).length = 32 := by simp [mackeyBytes]

@[simp] theorem tagBytes_length (s : State) : (tagBytes s).length = 16 := by simp [tagBytes]

/-- The four words of a tag hold its sixteen bytes (R97). -/
theorem groupBytes_tagWords (t : List Byte) (h : t.length = 16) : groupBytes (tagWords t).toList = t := by
  have e : ∀ i, i < 4 → wordBytes (wordAt t i) = (t.drop (4 * i)).take 4 := fun i hi => by
    rw [wordAt, wordBytes_le32]
    simp; omega
  have hl : (tagWords t).toList = [wordAt t 0, wordAt t 1, wordAt t 2, wordAt t 3] := rfl
  rw [hl]
  simp only [groupBytes_cons, groupBytes_nil, e 0 (by omega), e 1 (by omega), e 2 (by omega), e 3 (by omega)]
  have hd : ∀ n, t.drop n = (t.drop n).take 4 ++ t.drop (n + 4) := fun n => by
    rw [← List.drop_drop, List.take_append_drop]
  conv_rhs => rw [← List.drop_zero (l := t), hd 0, hd 4, hd 8, hd 12, List.drop_of_length_le (i := 16) (by omega)]

/-! ### Chunks (R87, R94) -/

theorem ceilDiv_zero {n : Nat} (hn : 0 < n) : ceilDiv 0 n = 0 := by
  simp only [ceilDiv]
  exact Nat.div_eq_of_lt (by omega)

@[simp] theorem chunks_nil {n : Nat} (hn : 0 < n) : chunks n [] = [] := by
  simp [chunks, ceilDiv_zero hn, chunksAux]

/-- A non-empty string is its first chunk and the chunks of the rest. -/
theorem chunks_cons {n : Nat} (hn : 0 < n) {bs : List Byte} (h : bs ≠ []) :
    chunks n bs = bs.take n :: chunks n (bs.drop n) := by
  have hl : 0 < bs.length := List.length_pos_iff.mpr h
  have : ceilDiv bs.length n = ceilDiv (bs.drop n).length n + 1 := by
    simp only [ceilDiv, List.length_drop]
    rcases Nat.le_total bs.length n with hle | hle
    · have h1 : bs.length - n + (n - 1) = n - 1 := by omega
      rw [h1, Nat.div_eq_of_lt (by omega : n - 1 < n)]
      have h2 : bs.length + (n - 1) = bs.length - 1 + n := by omega
      rw [h2, Nat.add_div_right _ hn, Nat.div_eq_of_lt (by omega)]
    · have h2 : bs.length + (n - 1) = bs.length - n + (n - 1) + n := by omega
      rw [h2, Nat.add_div_right _ hn]
  simp [chunks, this, chunksAux]

/-- Induction over a string chunk by chunk. -/
theorem chunk_induction {n : Nat} (hn : 0 < n) {P : List Byte → Prop} (nil : P [])
    (cons : ∀ bs, bs ≠ [] → P (bs.drop n) → P bs) (bs : List Byte) : P bs := by
  induction hk : bs.length using Nat.strong_induction_on generalizing bs with
  | _ k ih =>
    by_cases h : bs = []
    · exact h ▸ nil
    · have hl : 0 < bs.length := List.length_pos_iff.mpr h
      exact cons bs h (ih _ (by simp only [List.length_drop]; omega) _ rfl)

/-! ### The keystream and counter mode (R81, R87) -/

@[simp] theorem keystreamBlock_length (K : Vector Word 8) (c : Word) (N : Vector Word 3) :
    (keystreamBlock K c N).length = 64 := by simp [keystreamBlock, serialise]

/-- Byte `j` of the block at counter `c + k` is byte `64k + j` of the keystream (R81). -/
theorem keystreamBlock_getElem (K : Vector Word 8) (N : Vector Word 3) (c k j : Nat)
    (h : j < (keystreamBlock K (BitVec.ofNat 32 (c + k)) N).length) :
    (keystreamBlock K (BitVec.ofNat 32 (c + k)) N)[j] = keystreamByte K N c (64 * k + j) := by
  have hj : j < 64 := by simpa using h
  have e1 : (64 * k + j) / 64 = k := by omega
  have e2 : (64 * k + j) % 64 = j := by omega
  have e3 : (64 * k + j) % 4 = j % 4 := by omega
  simp only [keystreamBlock, serialise, groupBytes_getElem, keystreamByte, e1, e2, e3]
  rfl

theorem keystreamByte_add (K : Vector Word 8) (N : Vector Word 3) (c j : Nat) :
    keystreamByte K N (c + 1) j = keystreamByte K N c (64 + j) := by
  have e1 : c + (64 + j) / 64 = c + 1 + j / 64 := by omega
  have e2 : (64 + j) % 64 = j % 64 := by omega
  have e3 : (64 + j) % 4 = j % 4 := by omega
  simp only [keystreamByte, e1, e2, e3]

@[simp] theorem stream_nil (K : Vector Word 8) (N : Vector Word 3) (c : Nat) : stream K N c [] = [] := by
  simp [stream, streamChunks]

/-- One chunk of counter mode (R87). -/
theorem stream_cons (K : Vector Word 8) (N : Vector Word 3) (c : Nat) {D : List Byte} (h : D ≠ []) :
    stream K N c D =
      xorBytes (D.take 64) (keystreamBlock K (BitVec.ofNat 32 c) N) ++ stream K N (c + 1) (D.drop 64) := by
  simp [stream, chunks_cons (n := 64) (by omega) h, streamChunks]

theorem xorBytes_length (a b : List Byte) : (xorBytes a b).length = min a.length b.length := by simp [xorBytes]

@[simp] theorem stream_length (K : Vector Word 8) (N : Vector Word 3) (c : Nat) (D : List Byte) :
    (stream K N c D).length = D.length := by
  induction D using chunk_induction (n := 64) (by omega) generalizing c with
  | nil => simp
  | cons D h ih =>
    rw [stream_cons K N c h, List.length_append, ih, xorBytes_length]
    simp
    omega

/-- Each byte of counter mode is its data byte exclusive-or its keystream byte (R87). -/
theorem stream_getElem (K : Vector Word 8) (N : Vector Word 3) (c : Nat) (D : List Byte) (j : Nat)
    (h : j < (stream K N c D).length) (h' : j < D.length) :
    (stream K N c D)[j] = D[j] ^^^ keystreamByte K N c j := by
  induction D using chunk_induction (n := 64) (by omega) generalizing c j with
  | nil => simp at h'
  | cons D hD ih =>
    simp only [stream_cons K N c hD]
    by_cases hj : j < 64
    · rw [List.getElem_append_left (by rw [xorBytes_length]; simp; omega)]
      have := keystreamBlock_getElem K N c 0 j (by simpa using hj)
      simp only [Nat.add_zero, Nat.mul_zero, Nat.zero_add] at this
      simp [xorBytes, this]
    · have hl : (xorBytes (D.take 64) (keystreamBlock K (BitVec.ofNat 32 c) N)).length = 64 := by
        rw [xorBytes_length]; simp; omega
      rw [List.getElem_append_right (by omega)]
      simp only [hl]
      have hlt : j - 64 < (D.drop 64).length := by simp; omega
      rw [ih (c + 1) (j - 64) (by simpa using hlt) hlt, keystreamByte_add]
      have e : 64 + (j - 64) = j := by omega
      simp [e]

/-- `STREAM` is determined by its bytes (R87). -/
theorem eq_stream_of_isStreamOf {K : Vector Word 8} {N : Vector Word 3} {c : Nat} {D bs : List Byte}
    (h : isStreamOf K N c D bs) : bs = stream K N c D := by
  refine List.ext_getElem (by simpa using h.1) fun j h1 h2 => ?_
  have h3 : j < D.length := by simpa using h2
  rw [h.2 j h1 h3, stream_getElem K N c D j h2 h3]

/-! ### Tags -/

@[simp] theorem finishTag_length (acc s : Nat) : (finishTag acc s).length = 16 := leBytes_length _ _

@[simp] theorem poly_length (msg k : List Byte) : (poly msg k).length = 16 := finishTag_length _ _

@[simp] theorem aeadTag_length (K : Vector Word 8) (N : Vector Word 3) (aad ct : List Byte) :
    (aeadTag K N aad ct).length = 16 := poly_length _ _

end Sys2Proof.Machine
end

