-- ==== Sys2Proof/Laws/Memory.lean ====
section
/-! SUPPORT. The laws of the buffer memory: read after write, the canonical form, and the spec lemma of each operation. -/

namespace Sys2Proof.Machine

/-! ### One byte -/

/-- A byte written is the byte read; every other address reads as before. -/
theorem readByte_writeByte (m : Memory) (a c : Nat) (b : Byte) :
    readByte (writeByte m a b) c = if c = a then some b else readByte m c := by
  induction m with
  | nil => simp [writeByte, readByte, eq_comm]
  | cons x m ih =>
    obtain ⟨k, v⟩ := x
    simp only [writeByte]
    split
    · simp [readByte, eq_comm]
    · split
      · subst k
        by_cases h : c = a
        · simp [readByte, h]
        · simp [readByte, h, Ne.symm h]
      · simp only [readByte, ih]
        by_cases h : k = c
        · have : ¬ c = a := by omega
          simp [h, this]
        · simp [h]

/-- The addresses listed after a write are the address written and those listed before. -/
theorem mem_writeByte {m : Memory} {a : Nat} {b : Byte} {x : Host.Cell} (h : x ∈ writeByte m a b) :
    x = (a, b) ∨ x ∈ m := by
  induction m with
  | nil => simpa [writeByte] using h
  | cons y m ih =>
    obtain ⟨k, v⟩ := y
    simp only [writeByte] at h
    split at h
    · simpa using h
    · split at h
      · simp only [List.mem_cons] at h ⊢
        tauto
      · simp only [List.mem_cons] at h ⊢
        rcases h with h | h
        · tauto
        · rcases ih h with h | h <;> tauto

/-- A write keeps the canonical form. -/
theorem wf_writeByte {m : Memory} (h : m.wf) (a : Nat) (b : Byte) : (writeByte m a b).wf := by
  induction m with
  | nil => simp [writeByte, Memory.wf]
  | cons x m ih =>
    obtain ⟨k, v⟩ := x
    obtain ⟨hk, hm⟩ := List.pairwise_cons.mp h
    simp only [writeByte]
    split
    · rename_i hak
      refine List.pairwise_cons.mpr ⟨?_, h⟩
      intro y hy
      rcases List.mem_cons.mp hy with rfl | hy
      · exact hak
      · exact lt_trans hak (hk y hy)
    · split
      · rename_i _ hak
        subst hak
        exact List.pairwise_cons.mpr ⟨hk, hm⟩
      · refine List.pairwise_cons.mpr ⟨?_, ih hm⟩
        intro y hy
        rcases mem_writeByte hy with rfl | hy
        · simp only; omega
        · exact hk y hy

/-- An address of a canonical memory reads its own entry. -/
theorem readByte_of_mem {m : Memory} (h : m.wf) {x : Host.Cell} (hx : x ∈ m) : readByte m x.1 = some x.2 := by
  induction m with
  | nil => simp at hx
  | cons y m ih =>
    obtain ⟨hk, hm⟩ := List.pairwise_cons.mp h
    rcases List.mem_cons.mp hx with rfl | hx
    · simp [readByte]
    · have := hk x hx
      simp only [readByte, ih hm hx]
      rw [if_neg (by omega)]

/-- What reads is listed. -/
theorem mem_of_readByte {m : Memory} {a : Nat} {b : Byte} (h : readByte m a = some b) : (a, b) ∈ m := by
  induction m with
  | nil => simp [readByte] at h
  | cons y m ih =>
    obtain ⟨k, v⟩ := y
    simp only [readByte] at h
    split at h
    · rename_i hk
      simp_all
    · exact List.mem_cons_of_mem _ (ih h)

/-! ### A range of bytes -/

/-- Reading after a range was written (R14). -/
theorem readByte_writeBytes (m : Memory) (a c : Nat) (bs : List Byte) :
    readByte (writeBytes m a bs) c =
      if h : a ≤ c ∧ c - a < bs.length then some (bs[c - a]'h.2) else readByte m c := by
  induction bs generalizing m a with
  | nil => simp [writeBytes]
  | cons b bs ih =>
    simp only [writeBytes, ih, readByte_writeByte]
    by_cases h : c = a
    · subst h
      simp
    · by_cases h1 : a + 1 ≤ c ∧ c - (a + 1) < bs.length
      · have h2 : a ≤ c ∧ c - a < (b :: bs).length := by simp only [List.length_cons]; omega
        have h3 : c - a = (c - (a + 1)) + 1 := by omega
        rw [dif_pos h1, dif_pos h2]
        simp [h3]
      · have h2 : ¬ (a ≤ c ∧ c - a < (b :: bs).length) := by simp only [List.length_cons]; omega
        rw [dif_neg h1, dif_neg h2, if_neg h]

/-- A byte inside the range written. -/
theorem readByte_writeBytes_inside (m : Memory) (a j : Nat) (bs : List Byte) (h : j < bs.length) :
    readByte (writeBytes m a bs) (a + j) = some bs[j] := by
  rw [readByte_writeBytes, dif_pos ⟨by omega, by omega⟩]
  simp

/-- A byte outside the range written. -/
theorem readByte_writeBytes_outside (m : Memory) (a c : Nat) (bs : List Byte) (h : c < a ∨ a + bs.length ≤ c) :
    readByte (writeBytes m a bs) c = readByte m c := by
  rw [readByte_writeBytes, dif_neg (by omega)]

/-- Writing a range keeps the canonical form. -/
theorem wf_writeBytes {m : Memory} (h : m.wf) (a : Nat) (bs : List Byte) : (writeBytes m a bs).wf := by
  induction bs generalizing m a with
  | nil => exact h
  | cons b bs ih => exact ih (wf_writeByte h a b) (a + 1)

/-- The addresses listed after a range was written: those in the range and those listed before. -/
theorem addr_of_mem_writeBytes {m : Memory} {a : Nat} {bs : List Byte} {x : Host.Cell} (h : x ∈ writeBytes m a bs) :
    (a ≤ x.1 ∧ x.1 < a + bs.length) ∨ x ∈ m := by
  induction bs generalizing m a with
  | nil => exact .inr h
  | cons b bs ih =>
    simp only [List.length_cons]
    rcases ih h with h | h
    · left; omega
    · rcases mem_writeByte h with rfl | h
      · left; simp only; omega
      · exact .inr h

/-- Everything `readBytes` can answer: the bytes of the range, all written, or the first address that is not. -/
theorem readBytes_cases (m : Memory) (a n : Nat) :
    (∃ bs, readBytes m a n = .ok bs ∧ bs.length = n ∧ ∀ j (h : j < bs.length), readByte m (a + j) = some bs[j])
      ∨ ∃ k, k < n ∧ readBytes m a n = .error (a + k) ∧ readByte m (a + k) = none
          ∧ ∀ j, j < k → readByte m (a + j) ≠ none := by
  induction n generalizing a with
  | zero => exact .inl ⟨[], rfl, rfl, by simp⟩
  | succ n ih =>
    rcases hb : readByte m a with _ | b
    · exact .inr ⟨0, by omega, by simp [readBytes, hb], hb, by omega⟩
    · rcases ih (a + 1) with ⟨bs, h, hl, hr⟩ | ⟨k, hk, h, hn, hr⟩
      · refine .inl ⟨b :: bs, by simp [readBytes, hb, h], by simp [hl], ?_⟩
        rintro (_ | j) hj
        · simpa using hb
        · have := hr j (by simpa using hj)
          simpa [Nat.add_assoc, Nat.add_comm 1] using this
      · refine .inr ⟨k + 1, by omega, ?_, ?_, ?_⟩
        · simp [readBytes, hb, h, Nat.add_assoc, Nat.add_comm 1]
        · simpa [Nat.add_assoc, Nat.add_comm 1] using hn
        · rintro (_ | j) hj
          · simp [hb]
          · simpa [Nat.add_assoc, Nat.add_comm 1] using hr j (by omega)

/-- A range that holds `bs` reads as `bs`. -/
theorem readBytes_of_holds {m : Memory} {a n : Nat} {bs : List Byte} (hl : bs.length = n)
    (h : ∀ j (h : j < bs.length), readByte m (a + j) = some bs[j]) : readBytes m a n = .ok bs := by
  rcases readBytes_cases m a n with ⟨cs, hc, hcl, hr⟩ | ⟨k, hk, _, hn, _⟩
  · rw [hc]
    congr 1
    refine List.ext_getElem (by omega) fun j h1 h2 => ?_
    have := hr j h1
    rw [h j h2] at this
    simpa using this.symm
  · rw [h k (by omega)] at hn
    simp at hn

/-- A range with a first unwritten byte does not read. -/
theorem readBytes_of_unwritten {m : Memory} {a n k : Nat} (hk : k < n) (hn : readByte m (a + k) = none)
    (h : ∀ j, j < k → readByte m (a + j) ≠ none) : readBytes m a n = .error (a + k) := by
  rcases readBytes_cases m a n with ⟨cs, _, hcl, hr⟩ | ⟨i, _, hi, hin, hr⟩
  · rw [hr k (by omega)] at hn
    simp at hn
  · rcases Nat.lt_trichotomy i k with hik | rfl | hik
    · exact absurd hin (h i hik)
    · exact hi
    · exact absurd hn (hr k hik)

/-! ### The buffer after an abort -/

/-- Each byte after an abort: outside the output range as before, inside it as before or the byte that would have been
written (R135). -/
theorem readByte_mixBytes (t : Nat) (m : Memory) (a c : Nat) (bs : List Byte) :
    readByte (mixBytes t m a bs) c = readByte m c
      ∨ ∃ h : a ≤ c ∧ c - a < bs.length, readByte (mixBytes t m a bs) c = some (bs[c - a]'h.2) := by
  induction bs generalizing m a with
  | nil => exact .inl rfl
  | cons b bs ih =>
    simp only [mixBytes]
    rcases ih (if Config.abortTakesNew t a then writeByte m a b else m) (a + 1) with h | ⟨hc, h⟩
    · rw [h]
      split
      · rw [readByte_writeByte]
        by_cases hca : c = a
        · subst hca
          exact .inr ⟨by simp, by simp⟩
        · simp [hca]
      · exact .inl rfl
    · refine .inr ⟨by simp only [List.length_cons]; omega, ?_⟩
      rw [h]
      have h3 : c - a = (c - (a + 1)) + 1 := by omega
      simp [h3]

/-- An abort keeps the canonical form. -/
theorem wf_mixBytes {m : Memory} (h : m.wf) (t a : Nat) (bs : List Byte) : (mixBytes t m a bs).wf := by
  induction bs generalizing m a with
  | nil => exact h
  | cons b bs ih =>
    simp only [mixBytes]
    split
    · exact ih (wf_writeByte h a b) (a + 1)
    · exact ih h (a + 1)

/-- The addresses listed after an abort: those in the output range and those listed before. -/
theorem addr_of_mem_mixBytes {m : Memory} {t a : Nat} {bs : List Byte} {x : Host.Cell} (h : x ∈ mixBytes t m a bs) :
    (a ≤ x.1 ∧ x.1 < a + bs.length) ∨ x ∈ m := by
  induction bs generalizing m a with
  | nil => exact .inr h
  | cons b bs ih =>
    simp only [mixBytes] at h
    simp only [List.length_cons]
    rcases ih h with h | h
    · left; omega
    · split at h
      · rcases mem_writeByte h with rfl | h
        · left; simp only; omega
        · exact .inr h
      · exact .inr h

/-! ### Operand bytes given an open value (R56, R135) -/

/-- Every byte after a fill: an unwritten one of the range gets its open value, every other byte is as before. -/
theorem readByte_fillBytes (t : Nat) (m : Memory) (a n c : Nat) :
    readByte (fillBytes t m a n) c =
      if a ≤ c ∧ c < a + n then some ((readByte m c).getD (Config.unwrittenValue t c)) else readByte m c := by
  induction n generalizing m a with
  | zero => simp [fillBytes, show ¬ (a ≤ c ∧ c < a) by omega]
  | succ n ih =>
    simp only [fillBytes]
    by_cases hc : c = a
    · subst hc
      rcases h : readByte m c with _ | b <;> simp [ih, readByte_writeByte, h]
    · have e : (a + 1 ≤ c ∧ c < a + 1 + n) = (a ≤ c ∧ c < a + (n + 1)) := propext (by omega)
      rcases h : readByte m a with _ | b <;> simp only [ih, readByte_writeByte, if_neg hc, e]

/-- A fill changes no byte that holds a value. -/
theorem keepsWritten_fillBytes (t : Nat) (m : Memory) (a n : Nat) : keepsWritten m (fillBytes t m a n) := by
  intro c b h
  simp [readByte_fillBytes, h]

/-- What a range reads as, written whole, is what it reads as in a buffer that keeps the written bytes. -/
theorem readBytes_of_keepsWritten {m m' : Memory} (h : keepsWritten m m') {a n : Nat} {bs : List Byte}
    (hr : readBytes m a n = .ok bs) : readBytes m' a n = .ok bs := by
  rcases readBytes_cases m a n with ⟨cs, hc, hl, hb⟩ | ⟨k, _, hc, _⟩
  · rw [hr] at hc
    cases hc
    exact readBytes_of_holds hl fun j hj => h _ _ (hb j hj)
  · rw [hr] at hc
    cases hc

end Sys2Proof.Machine
end

