-- ==== Sys2Proof/Laws/State.lean ====
section
/-! SUPPORT. One lemma for each field under each named update of the state, so that no proof unfolds an update. -/

namespace Sys2Proof.Machine

/-! ### `complete` -/

@[simp] theorem complete_cfg (e : ErrCode) (s : State) : (complete e s).cfg = s.cfg := rfl

@[simp] theorem complete_irqEn (e : ErrCode) (s : State) : (complete e s).irqEn = s.irqEn := rfl

@[simp] theorem complete_busy (e : ErrCode) (s : State) : (complete e s).busy = false := rfl

@[simp] theorem complete_done (e : ErrCode) (s : State) : (complete e s).done = true := rfl

@[simp] theorem complete_err (e : ErrCode) (s : State) : (complete e s).err = (e != .none) := rfl

@[simp] theorem complete_authFail (e : ErrCode) (s : State) : (complete e s).authFail = (e == .auth) := rfl

@[simp] theorem complete_werr (e : ErrCode) (s : State) : (complete e s).werr = s.werr := rfl

@[simp] theorem complete_errcode (e : ErrCode) (s : State) : (complete e s).errcode = e := rfl

@[simp] theorem complete_len (e : ErrCode) (s : State) : (complete e s).len = s.len := rfl

@[simp] theorem complete_src (e : ErrCode) (s : State) : (complete e s).src = s.src := rfl

@[simp] theorem complete_dst (e : ErrCode) (s : State) : (complete e s).dst = s.dst := rfl

@[simp] theorem complete_aad (e : ErrCode) (s : State) : (complete e s).aad = s.aad := rfl

@[simp] theorem complete_aadlen (e : ErrCode) (s : State) : (complete e s).aadlen = s.aadlen := rfl

@[simp] theorem complete_counter (e : ErrCode) (s : State) : (complete e s).counter = s.counter := rfl

@[simp] theorem complete_nonce (e : ErrCode) (s : State) : (complete e s).nonce = s.nonce := rfl

@[simp] theorem complete_key (e : ErrCode) (s : State) : (complete e s).key = s.key := rfl

@[simp] theorem complete_mackey (e : ErrCode) (s : State) : (complete e s).mackey = s.mackey := rfl

@[simp] theorem complete_state (e : ErrCode) (s : State) : (complete e s).state = s.state := rfl

@[simp] theorem complete_tag (e : ErrCode) (s : State) : (complete e s).tag = s.tag := rfl

@[simp] theorem complete_cmdWord (e : ErrCode) (s : State) : (complete e s).cmdWord = 0#32 := rfl

@[simp] theorem complete_macActive (e : ErrCode) (s : State) : (complete e s).macActive = s.macActive := rfl

@[simp] theorem complete_macR (e : ErrCode) (s : State) : (complete e s).macR = s.macR := rfl

@[simp] theorem complete_macS (e : ErrCode) (s : State) : (complete e s).macS = s.macS := rfl

@[simp] theorem complete_macAcc (e : ErrCode) (s : State) : (complete e s).macAcc = s.macAcc := rfl

@[simp] theorem complete_mem (e : ErrCode) (s : State) : (complete e s).mem = s.mem := rfl

@[simp] theorem complete_freeTick (e : ErrCode) (s : State) : (complete e s).freeTick = s.freeTick := rfl

@[simp] theorem complete_inputs (e : ErrCode) (s : State) : (complete e s).inputs = s.inputs := rfl

@[simp] theorem complete_responses (e : ErrCode) (s : State) : (complete e s).responses = s.responses := rfl

/-! ### `accept` -/

@[simp] theorem accept_cfg (v : Word) (s : State) : (accept v s).cfg = s.cfg := rfl

@[simp] theorem accept_irqEn (v : Word) (s : State) : (accept v s).irqEn = s.irqEn := rfl

@[simp] theorem accept_busy (v : Word) (s : State) : (accept v s).busy = true := rfl

@[simp] theorem accept_done (v : Word) (s : State) : (accept v s).done = false := rfl

@[simp] theorem accept_err (v : Word) (s : State) : (accept v s).err = false := rfl

@[simp] theorem accept_authFail (v : Word) (s : State) : (accept v s).authFail = false := rfl

@[simp] theorem accept_werr (v : Word) (s : State) : (accept v s).werr = s.werr := rfl

@[simp] theorem accept_errcode (v : Word) (s : State) : (accept v s).errcode = .none := rfl

@[simp] theorem accept_len (v : Word) (s : State) : (accept v s).len = s.len := rfl

@[simp] theorem accept_src (v : Word) (s : State) : (accept v s).src = s.src := rfl

@[simp] theorem accept_dst (v : Word) (s : State) : (accept v s).dst = s.dst := rfl

@[simp] theorem accept_aad (v : Word) (s : State) : (accept v s).aad = s.aad := rfl

@[simp] theorem accept_aadlen (v : Word) (s : State) : (accept v s).aadlen = s.aadlen := rfl

@[simp] theorem accept_counter (v : Word) (s : State) : (accept v s).counter = s.counter := rfl

@[simp] theorem accept_nonce (v : Word) (s : State) : (accept v s).nonce = s.nonce := rfl

@[simp] theorem accept_key (v : Word) (s : State) : (accept v s).key = s.key := rfl

@[simp] theorem accept_mackey (v : Word) (s : State) : (accept v s).mackey = s.mackey := rfl

@[simp] theorem accept_state (v : Word) (s : State) : (accept v s).state = s.state := rfl

@[simp] theorem accept_tag (v : Word) (s : State) : (accept v s).tag = s.tag := rfl

@[simp] theorem accept_cmdWord (v : Word) (s : State) : (accept v s).cmdWord = v := rfl

@[simp] theorem accept_macActive (v : Word) (s : State) : (accept v s).macActive = s.macActive := rfl

@[simp] theorem accept_macR (v : Word) (s : State) : (accept v s).macR = s.macR := rfl

@[simp] theorem accept_macS (v : Word) (s : State) : (accept v s).macS = s.macS := rfl

@[simp] theorem accept_macAcc (v : Word) (s : State) : (accept v s).macAcc = s.macAcc := rfl

@[simp] theorem accept_mem (v : Word) (s : State) : (accept v s).mem = s.mem := rfl

@[simp] theorem accept_freeTick (v : Word) (s : State) : (accept v s).freeTick = s.freeTick := rfl

@[simp] theorem accept_inputs (v : Word) (s : State) : (accept v s).inputs = s.inputs := rfl

@[simp] theorem accept_responses (v : Word) (s : State) : (accept v s).responses = s.responses := rfl

/-! ### `storeOutput` -/

@[simp] theorem storeOutput_cfg (s : State) (out : List Byte) : (storeOutput s out).cfg = s.cfg := rfl

@[simp] theorem storeOutput_irqEn (s : State) (out : List Byte) : (storeOutput s out).irqEn = s.irqEn := rfl

@[simp] theorem storeOutput_busy (s : State) (out : List Byte) : (storeOutput s out).busy = s.busy := rfl

@[simp] theorem storeOutput_done (s : State) (out : List Byte) : (storeOutput s out).done = s.done := rfl

@[simp] theorem storeOutput_err (s : State) (out : List Byte) : (storeOutput s out).err = s.err := rfl

@[simp] theorem storeOutput_authFail (s : State) (out : List Byte) : (storeOutput s out).authFail = s.authFail := rfl

@[simp] theorem storeOutput_werr (s : State) (out : List Byte) : (storeOutput s out).werr = s.werr := rfl

@[simp] theorem storeOutput_errcode (s : State) (out : List Byte) : (storeOutput s out).errcode = s.errcode := rfl

@[simp] theorem storeOutput_len (s : State) (out : List Byte) : (storeOutput s out).len = s.len := rfl

@[simp] theorem storeOutput_src (s : State) (out : List Byte) : (storeOutput s out).src = s.src := rfl

@[simp] theorem storeOutput_dst (s : State) (out : List Byte) : (storeOutput s out).dst = s.dst := rfl

@[simp] theorem storeOutput_aad (s : State) (out : List Byte) : (storeOutput s out).aad = s.aad := rfl

@[simp] theorem storeOutput_aadlen (s : State) (out : List Byte) : (storeOutput s out).aadlen = s.aadlen := rfl

@[simp] theorem storeOutput_counter (s : State) (out : List Byte) : (storeOutput s out).counter = s.counter := rfl

@[simp] theorem storeOutput_nonce (s : State) (out : List Byte) : (storeOutput s out).nonce = s.nonce := rfl

@[simp] theorem storeOutput_key (s : State) (out : List Byte) : (storeOutput s out).key = s.key := rfl

@[simp] theorem storeOutput_mackey (s : State) (out : List Byte) : (storeOutput s out).mackey = s.mackey := rfl

@[simp] theorem storeOutput_state (s : State) (out : List Byte) : (storeOutput s out).state = s.state := rfl

@[simp] theorem storeOutput_tag (s : State) (out : List Byte) : (storeOutput s out).tag = s.tag := rfl

@[simp] theorem storeOutput_cmdWord (s : State) (out : List Byte) : (storeOutput s out).cmdWord = s.cmdWord := rfl

@[simp] theorem storeOutput_macActive (s : State) (out : List Byte) : (storeOutput s out).macActive = s.macActive := rfl

@[simp] theorem storeOutput_macR (s : State) (out : List Byte) : (storeOutput s out).macR = s.macR := rfl

@[simp] theorem storeOutput_macS (s : State) (out : List Byte) : (storeOutput s out).macS = s.macS := rfl

@[simp] theorem storeOutput_macAcc (s : State) (out : List Byte) : (storeOutput s out).macAcc = s.macAcc := rfl

@[simp] theorem storeOutput_mem (s : State) (out : List Byte) : (storeOutput s out).mem = writeBytes s.mem s.dst.toNat out := rfl

@[simp] theorem storeOutput_freeTick (s : State) (out : List Byte) : (storeOutput s out).freeTick = s.freeTick := rfl

@[simp] theorem storeOutput_inputs (s : State) (out : List Byte) : (storeOutput s out).inputs = s.inputs := rfl

@[simp] theorem storeOutput_responses (s : State) (out : List Byte) : (storeOutput s out).responses = s.responses := rfl

/-! ### `dropWrite` -/

@[simp] theorem dropWrite_cfg (s : State) : (dropWrite s).cfg = s.cfg := rfl

@[simp] theorem dropWrite_irqEn (s : State) : (dropWrite s).irqEn = s.irqEn := rfl

@[simp] theorem dropWrite_busy (s : State) : (dropWrite s).busy = s.busy := rfl

@[simp] theorem dropWrite_done (s : State) : (dropWrite s).done = s.done := rfl

@[simp] theorem dropWrite_err (s : State) : (dropWrite s).err = s.err := rfl

@[simp] theorem dropWrite_authFail (s : State) : (dropWrite s).authFail = s.authFail := rfl

@[simp] theorem dropWrite_werr (s : State) : (dropWrite s).werr = true := rfl

@[simp] theorem dropWrite_errcode (s : State) : (dropWrite s).errcode = s.errcode := rfl

@[simp] theorem dropWrite_len (s : State) : (dropWrite s).len = s.len := rfl

@[simp] theorem dropWrite_src (s : State) : (dropWrite s).src = s.src := rfl

@[simp] theorem dropWrite_dst (s : State) : (dropWrite s).dst = s.dst := rfl

@[simp] theorem dropWrite_aad (s : State) : (dropWrite s).aad = s.aad := rfl

@[simp] theorem dropWrite_aadlen (s : State) : (dropWrite s).aadlen = s.aadlen := rfl

@[simp] theorem dropWrite_counter (s : State) : (dropWrite s).counter = s.counter := rfl

@[simp] theorem dropWrite_nonce (s : State) : (dropWrite s).nonce = s.nonce := rfl

@[simp] theorem dropWrite_key (s : State) : (dropWrite s).key = s.key := rfl

@[simp] theorem dropWrite_mackey (s : State) : (dropWrite s).mackey = s.mackey := rfl

@[simp] theorem dropWrite_state (s : State) : (dropWrite s).state = s.state := rfl

@[simp] theorem dropWrite_tag (s : State) : (dropWrite s).tag = s.tag := rfl

@[simp] theorem dropWrite_cmdWord (s : State) : (dropWrite s).cmdWord = s.cmdWord := rfl

@[simp] theorem dropWrite_macActive (s : State) : (dropWrite s).macActive = s.macActive := rfl

@[simp] theorem dropWrite_macR (s : State) : (dropWrite s).macR = s.macR := rfl

@[simp] theorem dropWrite_macS (s : State) : (dropWrite s).macS = s.macS := rfl

@[simp] theorem dropWrite_macAcc (s : State) : (dropWrite s).macAcc = s.macAcc := rfl

@[simp] theorem dropWrite_mem (s : State) : (dropWrite s).mem = s.mem := rfl

@[simp] theorem dropWrite_freeTick (s : State) : (dropWrite s).freeTick = s.freeTick := rfl

@[simp] theorem dropWrite_inputs (s : State) : (dropWrite s).inputs = s.inputs := rfl

@[simp] theorem dropWrite_responses (s : State) : (dropWrite s).responses = s.responses := rfl

/-! ### `writeStatus` -/

@[simp] theorem writeStatus_cfg (v : Word) (s : State) : (writeStatus v s).cfg = s.cfg := rfl

@[simp] theorem writeStatus_irqEn (v : Word) (s : State) : (writeStatus v s).irqEn = s.irqEn := rfl

@[simp] theorem writeStatus_busy (v : Word) (s : State) : (writeStatus v s).busy = s.busy := rfl

@[simp] theorem writeStatus_done (v : Word) (s : State) : (writeStatus v s).done = (s.done && !v.getLsbD 1) := rfl

@[simp] theorem writeStatus_err (v : Word) (s : State) : (writeStatus v s).err = (s.err && !v.getLsbD 2) := rfl

@[simp] theorem writeStatus_authFail (v : Word) (s : State) : (writeStatus v s).authFail = s.authFail := rfl

@[simp] theorem writeStatus_werr (v : Word) (s : State) : (writeStatus v s).werr = (s.werr && !v.getLsbD 4) := rfl

@[simp] theorem writeStatus_errcode (v : Word) (s : State) : (writeStatus v s).errcode = s.errcode := rfl

@[simp] theorem writeStatus_len (v : Word) (s : State) : (writeStatus v s).len = s.len := rfl

@[simp] theorem writeStatus_src (v : Word) (s : State) : (writeStatus v s).src = s.src := rfl

@[simp] theorem writeStatus_dst (v : Word) (s : State) : (writeStatus v s).dst = s.dst := rfl

@[simp] theorem writeStatus_aad (v : Word) (s : State) : (writeStatus v s).aad = s.aad := rfl

@[simp] theorem writeStatus_aadlen (v : Word) (s : State) : (writeStatus v s).aadlen = s.aadlen := rfl

@[simp] theorem writeStatus_counter (v : Word) (s : State) : (writeStatus v s).counter = s.counter := rfl

@[simp] theorem writeStatus_nonce (v : Word) (s : State) : (writeStatus v s).nonce = s.nonce := rfl

@[simp] theorem writeStatus_key (v : Word) (s : State) : (writeStatus v s).key = s.key := rfl

@[simp] theorem writeStatus_mackey (v : Word) (s : State) : (writeStatus v s).mackey = s.mackey := rfl

@[simp] theorem writeStatus_state (v : Word) (s : State) : (writeStatus v s).state = s.state := rfl

@[simp] theorem writeStatus_tag (v : Word) (s : State) : (writeStatus v s).tag = s.tag := rfl

@[simp] theorem writeStatus_cmdWord (v : Word) (s : State) : (writeStatus v s).cmdWord = s.cmdWord := rfl

@[simp] theorem writeStatus_macActive (v : Word) (s : State) : (writeStatus v s).macActive = s.macActive := rfl

@[simp] theorem writeStatus_macR (v : Word) (s : State) : (writeStatus v s).macR = s.macR := rfl

@[simp] theorem writeStatus_macS (v : Word) (s : State) : (writeStatus v s).macS = s.macS := rfl

@[simp] theorem writeStatus_macAcc (v : Word) (s : State) : (writeStatus v s).macAcc = s.macAcc := rfl

@[simp] theorem writeStatus_mem (v : Word) (s : State) : (writeStatus v s).mem = s.mem := rfl

@[simp] theorem writeStatus_freeTick (v : Word) (s : State) : (writeStatus v s).freeTick = s.freeTick := rfl

@[simp] theorem writeStatus_inputs (v : Word) (s : State) : (writeStatus v s).inputs = s.inputs := rfl

@[simp] theorem writeStatus_responses (v : Word) (s : State) : (writeStatus v s).responses = s.responses := rfl

/-! ### `resetRegisters` -/

@[simp] theorem resetRegisters_cfg (m : Memory) (s : State) : (resetRegisters m s).cfg = s.cfg := rfl

@[simp] theorem resetRegisters_irqEn (m : Memory) (s : State) : (resetRegisters m s).irqEn = (State.powerOn s.cfg).irqEn := rfl

@[simp] theorem resetRegisters_busy (m : Memory) (s : State) : (resetRegisters m s).busy = (State.powerOn s.cfg).busy := rfl

@[simp] theorem resetRegisters_done (m : Memory) (s : State) : (resetRegisters m s).done = (State.powerOn s.cfg).done := rfl

@[simp] theorem resetRegisters_err (m : Memory) (s : State) : (resetRegisters m s).err = (State.powerOn s.cfg).err := rfl

@[simp] theorem resetRegisters_authFail (m : Memory) (s : State) : (resetRegisters m s).authFail = (State.powerOn s.cfg).authFail := rfl

@[simp] theorem resetRegisters_werr (m : Memory) (s : State) : (resetRegisters m s).werr = (State.powerOn s.cfg).werr := rfl

@[simp] theorem resetRegisters_errcode (m : Memory) (s : State) : (resetRegisters m s).errcode = (State.powerOn s.cfg).errcode := rfl

@[simp] theorem resetRegisters_len (m : Memory) (s : State) : (resetRegisters m s).len = (State.powerOn s.cfg).len := rfl

@[simp] theorem resetRegisters_src (m : Memory) (s : State) : (resetRegisters m s).src = (State.powerOn s.cfg).src := rfl

@[simp] theorem resetRegisters_dst (m : Memory) (s : State) : (resetRegisters m s).dst = (State.powerOn s.cfg).dst := rfl

@[simp] theorem resetRegisters_aad (m : Memory) (s : State) : (resetRegisters m s).aad = (State.powerOn s.cfg).aad := rfl

@[simp] theorem resetRegisters_aadlen (m : Memory) (s : State) : (resetRegisters m s).aadlen = (State.powerOn s.cfg).aadlen := rfl

@[simp] theorem resetRegisters_counter (m : Memory) (s : State) : (resetRegisters m s).counter = (State.powerOn s.cfg).counter := rfl

@[simp] theorem resetRegisters_nonce (m : Memory) (s : State) : (resetRegisters m s).nonce = (State.powerOn s.cfg).nonce := rfl

@[simp] theorem resetRegisters_key (m : Memory) (s : State) : (resetRegisters m s).key = (State.powerOn s.cfg).key := rfl

@[simp] theorem resetRegisters_mackey (m : Memory) (s : State) : (resetRegisters m s).mackey = (State.powerOn s.cfg).mackey := rfl

@[simp] theorem resetRegisters_state (m : Memory) (s : State) : (resetRegisters m s).state = (State.powerOn s.cfg).state := rfl

@[simp] theorem resetRegisters_tag (m : Memory) (s : State) : (resetRegisters m s).tag = (State.powerOn s.cfg).tag := rfl

@[simp] theorem resetRegisters_cmdWord (m : Memory) (s : State) : (resetRegisters m s).cmdWord = (State.powerOn s.cfg).cmdWord := rfl

@[simp] theorem resetRegisters_macActive (m : Memory) (s : State) : (resetRegisters m s).macActive = (State.powerOn s.cfg).macActive := rfl

@[simp] theorem resetRegisters_macR (m : Memory) (s : State) : (resetRegisters m s).macR = (State.powerOn s.cfg).macR := rfl

@[simp] theorem resetRegisters_macS (m : Memory) (s : State) : (resetRegisters m s).macS = (State.powerOn s.cfg).macS := rfl

@[simp] theorem resetRegisters_macAcc (m : Memory) (s : State) : (resetRegisters m s).macAcc = (State.powerOn s.cfg).macAcc := rfl

@[simp] theorem resetRegisters_mem (m : Memory) (s : State) : (resetRegisters m s).mem = m := rfl

@[simp] theorem resetRegisters_freeTick (m : Memory) (s : State) : (resetRegisters m s).freeTick = s.freeTick + 1 := rfl

@[simp] theorem resetRegisters_inputs (m : Memory) (s : State) : (resetRegisters m s).inputs = s.inputs := rfl

@[simp] theorem resetRegisters_responses (m : Memory) (s : State) : (resetRegisters m s).responses = s.responses := rfl

/-! ### `State.powerOn` -/

@[simp] theorem powerOn_cfg (c : Config) : (State.powerOn c).cfg = c := rfl

@[simp] theorem powerOn_irqEn (c : Config) : (State.powerOn c).irqEn = false := rfl

@[simp] theorem powerOn_busy (c : Config) : (State.powerOn c).busy = false := rfl

@[simp] theorem powerOn_done (c : Config) : (State.powerOn c).done = false := rfl

@[simp] theorem powerOn_err (c : Config) : (State.powerOn c).err = false := rfl

@[simp] theorem powerOn_authFail (c : Config) : (State.powerOn c).authFail = false := rfl

@[simp] theorem powerOn_werr (c : Config) : (State.powerOn c).werr = false := rfl

@[simp] theorem powerOn_errcode (c : Config) : (State.powerOn c).errcode = .none := rfl

@[simp] theorem powerOn_cmdWord (c : Config) : (State.powerOn c).cmdWord = 0#32 := rfl

@[simp] theorem powerOn_macActive (c : Config) : (State.powerOn c).macActive = false := rfl

@[simp] theorem powerOn_macR (c : Config) : (State.powerOn c).macR = 0#128 := rfl

@[simp] theorem powerOn_macS (c : Config) : (State.powerOn c).macS = 0#128 := rfl

@[simp] theorem powerOn_macAcc (c : Config) : (State.powerOn c).macAcc = 0#130 := rfl

@[simp] theorem powerOn_mem (c : Config) : (State.powerOn c).mem = [] := rfl

end Sys2Proof.Machine
end

