-- ==== Sys2Proof/Laws/Commands.lean ====
section
/-! SUPPORT. The spec lemmas of the checks, of each command's rule, and of `exec`: everything a command can do. -/

namespace Sys2Proof.Machine

/-! ### Checks (R89, R116, R117) -/

theorem rangeOk_iff (s : State) (a n : Word) : rangeOk s.cfg a n = true ↔ inBuffer s a n := by
  simp [rangeOk, inBuffer]

theorem partialOverlap_iff (a b n : Word) : partialOverlap a b n = true ↔ overlapsPartly a b n := by
  simp only [partialOverlap, overlapsPartly, Bool.and_eq_true, decide_eq_true_eq, bne_iff_ne]
  tauto

theorem intersects_iff (d n a m : Word) : intersects d n a m = true ↔ rangesMeet d n a m := by
  simp only [intersects, rangesMeet, Bool.and_eq_true, decide_eq_true_eq]
  tauto

theorem counterFits_iff (c : Nat) (n : Word) : counterFits c n = true ↔ counterStays c n := by
  exact decide_eq_true_iff

/-- A message from counter 1 on never reaches 2^32 blocks, whatever `LEN` is (R112: `E_COUNTER` is unreachable in SEAL
and OPEN). -/
@[simp] theorem counterStays_one (n : Word) : counterStays 1 n := by
  have := n.isLt
  simp only [counterStays]
  omega

theorem pairwiseDistinct_iff (a b c d : Fin 16) :
    pairwiseDistinct a b c d = true ↔ a ≠ b ∧ a ≠ c ∧ a ≠ d ∧ b ≠ c ∧ b ≠ d ∧ c ≠ d := by
  simp only [pairwiseDistinct, Bool.and_eq_true, bne_iff_ne]
  tauto

/-! ### Completion (R65, R113) -/

/-- Everything `finish` can answer with a next state. -/
theorem finish_next {s t : State} {r : Except Stop State} (h : finish s r = .next t) :
    (∃ u, r = .ok u ∧ t = complete .none u) ∨ ∃ e, r = .error (.raise e) ∧ t = complete e s := by
  rcases r with (e | a) | u
  · exact .inr ⟨e, rfl, by simpa [finish, raiseError] using h.symm⟩
  · simp [finish] at h
  · exact .inl ⟨u, rfl, by simpa [finish] using h.symm⟩

@[simp] theorem finish_ok (s u : State) : finish s (.ok u) = .next (complete .none u) := rfl

@[simp] theorem finish_raise (s : State) (e : ErrCode) : finish s (.error (.raise e)) = .next (complete e s) := rfl

@[simp] theorem finish_unwritten (s : State) (a : Nat) :
    finish s (.error (.unwritten a)) = .fault (.unwrittenByte a) := rfl

/-- No completion is refused. -/
theorem finish_not_refused (s : State) (r : Except Stop State) (x : Refusal) : finish s r ≠ .refused x := by
  rcases r with (e | a) | u <;> simp [finish, raiseError]

/-! ### Message operands (R14, R56) -/

theorem readMessage_of_holds {s : State} {a n : Word} {bs : List Byte} (hl : bs.length = n.toNat)
    (h : holdsBytes s.mem a.toNat bs) : readMessage s a n = .ok bs := by
  simp [readMessage, readBytes_of_holds hl h]

theorem readMessage_of_unwritten {s : State} {a n : Word} {k : Nat} (hk : k < n.toNat)
    (hn : readByte s.mem (a.toNat + k) = none) (h : ∀ j, j < k → readByte s.mem (a.toNat + j) ≠ none) :
    readMessage s a n = .error (.unwritten (a.toNat + k)) := by
  simp [readMessage, readBytes_of_unwritten hk hn h]

/-- What a message operand can give: its bytes, or an unwritten address. -/
theorem readMessage_cases (s : State) (a n : Word) :
    (∃ bs, readMessage s a n = .ok bs ∧ bs.length = n.toNat ∧ holdsBytes s.mem a.toNat bs)
      ∨ ∃ x, readMessage s a n = .error (.unwritten x) := by
  rcases readBytes_cases s.mem a.toNat n.toNat with ⟨bs, h, hl, hr⟩ | ⟨k, _, h, _⟩
  · exact .inl ⟨bs, by simp [readMessage, h], hl, hr⟩
  · exact .inr ⟨a.toNat + k, by simp [readMessage, h]⟩

theorem readMessage_ok {s : State} {a n : Word} {bs : List Byte} (h : readMessage s a n = .ok bs) :
    bs.length = n.toNat ∧ holdsBytes s.mem a.toNat bs := by
  rcases readMessage_cases s a n with ⟨cs, hc, hl, hr⟩ | ⟨x, hx⟩
  · rw [hc] at h
    cases h
    exact ⟨hl, hr⟩
  · simp [hx] at h

/-! ### The rules of the buffer commands -/

/-- Everything XOR's rule can give (R91). -/
theorem xorOutput_cases (s : State) :
    (¬ (inBuffer s s.src s.len ∧ inBuffer s s.dst s.len) ∧ xorOutput s = .error (.raise .range))
      ∨ ((inBuffer s s.src s.len ∧ inBuffer s s.dst s.len) ∧
          ((overlapsPartly s.src s.dst s.len ∧ xorOutput s = .error (.raise .overlap))
            ∨ (¬ overlapsPartly s.src s.dst s.len ∧
                ((¬ counterStays s.counter.toNat s.len ∧ xorOutput s = .error (.raise .counter))
                  ∨ (counterStays s.counter.toNat s.len ∧
                      ((∃ D, readMessage s s.src s.len = .ok D
                          ∧ xorOutput s = .ok (stream s.key s.nonce s.counter.toNat D))
                        ∨ ∃ x, readMessage s s.src s.len = .error (.unwritten x)
                            ∧ xorOutput s = .error (.unwritten x))))))) := by
  have hr : (rangeOk s.cfg s.src s.len && rangeOk s.cfg s.dst s.len) = true ↔
      inBuffer s s.src s.len ∧ inBuffer s s.dst s.len := by simp [rangeOk_iff]
  by_cases h1 : inBuffer s s.src s.len ∧ inBuffer s s.dst s.len
  · refine .inr ⟨h1, ?_⟩
    by_cases h2 : overlapsPartly s.src s.dst s.len
    · refine .inl ⟨h2, ?_⟩
      simp [xorOutput, hr.mpr h1, (partialOverlap_iff _ _ _).mpr h2]
    · refine .inr ⟨h2, ?_⟩
      rw [← partialOverlap_iff, Bool.not_eq_true] at h2
      by_cases h3 : counterStays s.counter.toNat s.len
      · refine .inr ⟨h3, ?_⟩
        rcases readMessage_cases s s.src s.len with ⟨D, hD, _⟩ | ⟨x, hx⟩
        · exact .inl ⟨D, hD, by simp [xorOutput, hr.mpr h1, h2, (counterFits_iff _ _).mpr h3, hD]⟩
        · exact .inr ⟨x, hx, by simp [xorOutput, hr.mpr h1, h2, (counterFits_iff _ _).mpr h3, hx]⟩
      · refine .inl ⟨h3, ?_⟩
        rw [← counterFits_iff, Bool.not_eq_true] at h3
        simp [xorOutput, hr.mpr h1, h2, h3]
  · refine .inl ⟨h1, ?_⟩
    rw [← hr, Bool.not_eq_true] at h1
    simp [xorOutput, h1]

/-- Everything the operands of SEAL and OPEN can give (R110, R111). -/
theorem aeadOperands_cases (s : State) :
    (¬ aeadInBuffer s ∧ aeadOperands s = .error (.raise .range))
      ∨ (aeadInBuffer s ∧
          ((aeadOverlaps s ∧ aeadOperands s = .error (.raise .overlap))
            ∨ (¬ aeadOverlaps s ∧
                ((¬ counterStays 1 s.len ∧ aeadOperands s = .error (.raise .counter))
                  ∨ (counterStays 1 s.len ∧
                      ((∃ M A, readMessage s s.src s.len = .ok M ∧ readMessage s s.aad s.aadlen = .ok A
                          ∧ aeadOperands s = .ok (M, A))
                        ∨ ∃ x, (readMessage s s.src s.len = .error (.unwritten x)
                              ∨ readMessage s s.aad s.aadlen = .error (.unwritten x))
                            ∧ aeadOperands s = .error (.unwritten x))))))) := by
  have hr : (rangeOk s.cfg s.src s.len && rangeOk s.cfg s.dst s.len && rangeOk s.cfg s.aad s.aadlen) = true ↔
      aeadInBuffer s := by simp [rangeOk_iff, aeadInBuffer, and_assoc]
  have ho : (partialOverlap s.src s.dst s.len || intersects s.dst s.len s.aad s.aadlen) = true ↔ aeadOverlaps s := by
    simp [partialOverlap_iff, intersects_iff, aeadOverlaps]
  by_cases h1 : aeadInBuffer s
  · refine .inr ⟨h1, ?_⟩
    by_cases h2 : aeadOverlaps s
    · exact .inl ⟨h2, by simp [aeadOperands, hr.mpr h1, ho.mpr h2]⟩
    · refine .inr ⟨h2, ?_⟩
      rw [← ho, Bool.not_eq_true] at h2
      by_cases h3 : counterStays 1 s.len
      · refine .inr ⟨h3, ?_⟩
        have h3' := (counterFits_iff _ _).mpr h3
        rcases readMessage_cases s s.src s.len with ⟨M, hM, _⟩ | ⟨x, hx⟩
        · rcases readMessage_cases s s.aad s.aadlen with ⟨A, hA, _⟩ | ⟨x, hx⟩
          · exact .inl ⟨M, A, hM, hA, by simp [aeadOperands, hr.mpr h1, h2, h3', hM, hA]⟩
          · exact .inr ⟨x, .inr hx, by simp [aeadOperands, hr.mpr h1, h2, h3', hM, hx]⟩
        · exact .inr ⟨x, .inl hx, by simp [aeadOperands, hr.mpr h1, h2, h3', hx]⟩
      · refine .inl ⟨h3, ?_⟩
        rw [← counterFits_iff, Bool.not_eq_true] at h3
        simp [aeadOperands, hr.mpr h1, h2, h3]
  · refine .inl ⟨h1, ?_⟩
    rw [← hr, Bool.not_eq_true] at h1
    simp [aeadOperands, h1]

/-- SEAL's and OPEN's operands once their checks pass and every byte is written (R110, R111). -/
theorem aeadOperands_of_holds {s : State} {M A : List Byte} (hb : aeadInBuffer s) (ho : ¬ aeadOverlaps s)
    (hc : counterStays 1 s.len) (hml : M.length = s.len.toNat) (hm : holdsBytes s.mem s.src.toNat M)
    (hal : A.length = s.aadlen.toNat) (ha : holdsBytes s.mem s.aad.toNat A) : aeadOperands s = .ok (M, A) := by
  have r1 := readMessage_of_holds hml hm
  have r2 := readMessage_of_holds hal ha
  rcases aeadOperands_cases s with ⟨h, _⟩ | ⟨_, ⟨h, _⟩ | ⟨_, ⟨h, _⟩ | ⟨_, ⟨M', A', hM, hA, hx⟩ | ⟨x, hx | hx, _⟩⟩⟩⟩
  · exact absurd hb h
  · exact absurd h ho
  · exact absurd hc h
  · rw [r1] at hM
    rw [r2] at hA
    cases hM
    cases hA
    exact hx
  · simp [r1] at hx
  · simp [r2] at hx

/-- SEAL's and OPEN's operands once their checks pass and the message holds an unwritten byte (R56). -/
theorem aeadOperands_of_unwritten {s : State} {x : Nat} (hb : aeadInBuffer s) (ho : ¬ aeadOverlaps s)
    (hc : counterStays 1 s.len) (hr : readMessage s s.src s.len = .error (.unwritten x)) :
    aeadOperands s = .error (.unwritten x) := by
  have h1 : (rangeOk s.cfg s.src s.len && rangeOk s.cfg s.dst s.len && rangeOk s.cfg s.aad s.aadlen) = true := by
    simpa [rangeOk_iff, aeadInBuffer, and_assoc] using hb
  have h2 : (partialOverlap s.src s.dst s.len || intersects s.dst s.len s.aad s.aadlen) = false := by
    rw [← Bool.not_eq_true]
    simpa [partialOverlap_iff, intersects_iff, aeadOverlaps] using ho
  simp [aeadOperands, h1, h2, (counterFits_iff _ _).mpr hc, hr]

/-- What SEAL writes when it writes (R110). -/
theorem sealOutput_ok {s : State} {ct tag : List Byte} (h : sealOutput s = .ok (ct, tag)) :
    aeadInBuffer s ∧ ¬ aeadOverlaps s ∧ counterStays 1 s.len
      ∧ ∃ P A, readMessage s s.src s.len = .ok P ∧ readMessage s s.aad s.aadlen = .ok A
          ∧ ct = stream s.key s.nonce 1 P ∧ tag = aeadTag s.key s.nonce A ct := by
  rcases aeadOperands_cases s with ⟨_, hx⟩ | ⟨h1, ⟨_, hx⟩ | ⟨h2, ⟨_, hx⟩ | ⟨h3, ⟨P, A, hP, hA, hx⟩ | ⟨x, _, hx⟩⟩⟩⟩ <;>
    simp only [sealOutput, hx, sealF, Except.ok.injEq, Prod.mk.injEq, reduceCtorEq] at h
  obtain ⟨rfl, rfl⟩ := h
  exact ⟨h1, h2, h3, P, A, hP, hA, rfl, rfl⟩

/-- What OPEN writes when it writes (R111). -/
theorem openOutput_ok {s : State} {pt : List Byte} (h : openOutput s = .ok pt) :
    aeadInBuffer s ∧ ¬ aeadOverlaps s ∧ counterStays 1 s.len
      ∧ ∃ C A, readMessage s s.src s.len = .ok C ∧ readMessage s s.aad s.aadlen = .ok A
          ∧ openF s.key s.nonce C (tagBytes s) A = some pt ∧ pt = stream s.key s.nonce 1 C := by
  rcases aeadOperands_cases s with ⟨_, hx⟩ | ⟨h1, ⟨_, hx⟩ | ⟨h2, ⟨_, hx⟩ | ⟨h3, ⟨C, A, hC, hA, hx⟩ | ⟨x, _, hx⟩⟩⟩⟩ <;>
    simp only [openOutput, hx, reduceCtorEq] at h
  split at h
  · simp at h
  · rename_i p hp
    cases h
    refine ⟨h1, h2, h3, C, A, hC, hA, hp, ?_⟩
    simp only [openF] at hp
    split at hp
    · exact (Option.some.inj hp).symm
    · simp at hp

/-- What XOR writes when it writes (R91). -/
theorem xorOutput_ok {s : State} {out : List Byte} (h : xorOutput s = .ok out) :
    inBuffer s s.src s.len ∧ inBuffer s s.dst s.len ∧ ¬ overlapsPartly s.src s.dst s.len
      ∧ counterStays s.counter.toNat s.len
      ∧ ∃ D, readMessage s s.src s.len = .ok D ∧ out = stream s.key s.nonce s.counter.toNat D := by
  rcases xorOutput_cases s with ⟨_, hx⟩ | ⟨h1, ⟨_, hx⟩ | ⟨h2, ⟨_, hx⟩ | ⟨h3, ⟨D, hD, hx⟩ | ⟨x, _, hx⟩⟩⟩⟩ <;>
    simp only [hx, Except.ok.injEq, reduceCtorEq] at h
  exact ⟨h1.1, h1.2, h2, h3, D, hD, h.symm⟩

/-- A command that writes the buffer writes `LEN` bytes, all inside the buffer (R55, R91, R110, R111). -/
theorem bufferOutput_ok {i : Instr} {s : State} {out : List Byte} (h : bufferOutput i s = .ok out) :
    out = [] ∨ (out.length = s.len.toNat ∧ inBuffer s s.dst s.len) := by
  cases i with
  | xor =>
    obtain ⟨_, hd, _, _, D, hD, rfl⟩ := xorOutput_ok h
    exact .inr ⟨by simpa using (readMessage_ok hD).1, hd⟩
  | aeadSeal =>
    simp only [bufferOutput] at h
    split at h
    · rename_i ct tag hs
      cases h
      obtain ⟨hb, _, _, P, A, hP, _, rfl, _⟩ := sealOutput_ok hs
      exact .inr ⟨by simpa using (readMessage_ok hP).1, hb.2.1⟩
    · simp at h
  | aeadOpen =>
    obtain ⟨hb, _, _, C, A, hC, _, _, rfl⟩ := openOutput_ok h
    exact .inr ⟨by simpa using (readMessage_ok hC).1, hb.2.1⟩
  | init => exact .inl (by simpa [bufferOutput] using h.symm)
  | qround a b c d => exact .inl (by simpa [bufferOutput] using h.symm)
  | dround => exact .inl (by simpa [bufferOutput] using h.symm)
  | permute => exact .inl (by simpa [bufferOutput] using h.symm)
  | block => exact .inl (by simpa [bufferOutput] using h.symm)
  | macInit => exact .inl (by simpa [bufferOutput] using h.symm)
  | macUpdate => exact .inl (by simpa [bufferOutput] using h.symm)
  | macFinal => exact .inl (by simpa [bufferOutput] using h.symm)
  | mac => exact .inl (by simpa [bufferOutput] using h.symm)
  | keygen => exact .inl (by simpa [bufferOutput] using h.symm)

/-! ### Commands on a buffer whose unwritten bytes hold some value (R56, R135) -/

theorem readMessage_of_keepsWritten {s : State} {m : Memory} (h : keepsWritten s.mem m) {a n : Word} {bs : List Byte}
    (hr : readMessage s a n = .ok bs) : readMessage { s with mem := m } a n = .ok bs := by
  obtain ⟨hl, hb⟩ := readMessage_ok hr
  exact readMessage_of_holds hl fun j hj => h _ _ (hb j hj)

theorem xorOutput_of_keepsWritten {s : State} {m : Memory} (h : keepsWritten s.mem m)
    (hu : ∀ x, xorOutput s ≠ .error (.unwritten x)) : xorOutput { s with mem := m } = xorOutput s := by
  simp only [xorOutput] at hu ⊢
  split
  · rfl
  · split
    · rfl
    · split
      · rfl
      · rcases readMessage_cases s s.src s.len with ⟨D, hD, _⟩ | ⟨x, hx⟩
        · rw [hD, readMessage_of_keepsWritten h hD]
        · simp_all

theorem aeadOperands_of_keepsWritten {s : State} {m : Memory} (h : keepsWritten s.mem m)
    (hu : ∀ x, aeadOperands s ≠ .error (.unwritten x)) : aeadOperands { s with mem := m } = aeadOperands s := by
  simp only [aeadOperands] at hu ⊢
  split
  · rfl
  · split
    · rfl
    · split
      · rfl
      · rcases readMessage_cases s s.src s.len with ⟨D, hD, _⟩ | ⟨x, hx⟩
        · rw [hD, readMessage_of_keepsWritten h hD]
          rcases readMessage_cases s s.aad s.aadlen with ⟨A, hA, _⟩ | ⟨x, hx⟩
          · rw [hA, readMessage_of_keepsWritten h hA]
          · simp_all
        · simp_all

/-- A command whose operand bytes are written, or that fails a check, does not see what the unwritten bytes hold. -/
theorem bufferOutput_of_keepsWritten {i : Instr} {s : State} {m : Memory} (h : keepsWritten s.mem m)
    (hu : ∀ x, bufferOutput i s ≠ .error (.unwritten x)) :
    bufferOutput i { s with mem := m } = bufferOutput i s := by
  cases i with
  | xor => exact xorOutput_of_keepsWritten h hu
  | aeadSeal =>
    have ho : ∀ x, aeadOperands s ≠ .error (.unwritten x) := fun x hx => hu x (by simp [bufferOutput, sealOutput, hx])
    simp only [bufferOutput, sealOutput, aeadOperands_of_keepsWritten h ho]
  | aeadOpen =>
    have ho : ∀ x, aeadOperands s ≠ .error (.unwritten x) := fun x hx => hu x (by simp [bufferOutput, openOutput, hx])
    simp only [bufferOutput, openOutput, aeadOperands_of_keepsWritten h ho]
    rfl
  | init => rfl
  | qround a b c d => rfl
  | dround => rfl
  | permute => rfl
  | block => rfl
  | macInit => rfl
  | macUpdate => rfl
  | macFinal => rfl
  | mac => rfl
  | keygen => rfl

/-- Filling the operand bytes changes no written byte. -/
theorem keepsWritten_operandsFilled (s : State) : keepsWritten s.mem (operandsFilled s).mem := fun a b h =>
  keepsWritten_fillBytes _ _ _ _ a b (keepsWritten_fillBytes _ _ _ _ a b h)

/-- On filled operands no command reads an unwritten byte, so an abort never falls back for want of a value. -/
theorem bufferOutput_operandsFilled (i : Instr) (s : State) (x : Nat) :
    bufferOutput i (operandsFilled s) ≠ .error (.unwritten x) := by
  have hsrc : ∃ D, readMessage (operandsFilled s) s.src s.len = .ok D := by
    rcases readBytes_cases (operandsFilled s).mem s.src.toNat s.len.toNat with ⟨D, hD, _⟩ | ⟨k, hk, _, hn, _⟩
    · exact ⟨D, by simp [readMessage, hD]⟩
    · simp [operandsFilled, readByte_fillBytes, hk] at hn
  have haad : ∃ A, readMessage (operandsFilled s) s.aad s.aadlen = .ok A := by
    rcases readBytes_cases (operandsFilled s).mem s.aad.toNat s.aadlen.toNat with ⟨A, hA, _⟩ | ⟨k, hk, _, hn, _⟩
    · exact ⟨A, by simp [readMessage, hA]⟩
    · simp [operandsFilled, readByte_fillBytes, hk] at hn
  obtain ⟨D, hD⟩ := hsrc
  obtain ⟨A, hA⟩ := haad
  have hop : ∀ y, aeadOperands (operandsFilled s) ≠ .error (.unwritten y) := by
    intro y hy
    rcases aeadOperands_cases (operandsFilled s) with
      ⟨_, hx⟩ | ⟨_, ⟨_, hx⟩ | ⟨_, ⟨_, hx⟩ | ⟨_, ⟨M, A', _, _, hx⟩ | ⟨z, hz | hz, _⟩⟩⟩⟩
    · simp [hx] at hy
    · simp [hx] at hy
    · simp [hx] at hy
    · simp [hx] at hy
    · exact absurd (hD.symm.trans hz) (by simp)
    · exact absurd (hA.symm.trans hz) (by simp)
  intro h
  cases i with
  | xor =>
    rcases xorOutput_cases (operandsFilled s) with
      ⟨_, hx⟩ | ⟨_, ⟨_, hx⟩ | ⟨_, ⟨_, hx⟩ | ⟨_, ⟨M, _, hx⟩ | ⟨z, hz, _⟩⟩⟩⟩
    · simp [bufferOutput, hx] at h
    · simp [bufferOutput, hx] at h
    · simp [bufferOutput, hx] at h
    · simp [bufferOutput, hx] at h
    · exact absurd (hD.symm.trans hz) (by simp)
  | aeadSeal =>
    rcases ho : aeadOperands (operandsFilled s) with (e | y) | ⟨M, A'⟩
    · simp [bufferOutput, sealOutput, ho] at h
    · exact hop y ho
    · simp [bufferOutput, sealOutput, ho] at h
  | aeadOpen =>
    rcases ho : aeadOperands (operandsFilled s) with (e | y) | ⟨M, A'⟩
    · simp [bufferOutput, openOutput, ho] at h
    · exact hop y ho
    · simp only [bufferOutput, openOutput, ho] at h
      split at h <;> simp at h
  | init => simp [bufferOutput] at h
  | qround a b c d => simp [bufferOutput] at h
  | dround => simp [bufferOutput] at h
  | permute => simp [bufferOutput] at h
  | block => simp [bufferOutput] at h
  | macInit => simp [bufferOutput] at h
  | macUpdate => simp [bufferOutput] at h
  | macFinal => simp [bufferOutput] at h
  | mac => simp [bufferOutput] at h
  | keygen => simp [bufferOutput] at h

/-! ### Every command -/

/-- What a command changes when it succeeds: `u` is the state its rule leaves, before the completion's last lines. -/
def commandEffect (i : Instr) (s u : State) : Prop :=
  match i with
  | .init => u = { s with state := initState s.key s.counter s.nonce }
  | .qround a b c d => pairwiseDistinct a b c d = true ∧ u = { s with state := quarterRoundAt s.state a b c d }
  | .dround => u = { s with state := doubleRound s.state }
  | .permute => u = { s with state := perm s.state }
  | .block => u = { s with state := perm (initState s.key s.counter s.nonce) }
  | .xor => ∃ out, xorOutput s = .ok out ∧ u = storeOutput s out
  | .macInit =>
      u = { s with macR := keyR (mackeyBytes s), macS := keyS (mackeyBytes s), macAcc := 0#130, macActive := true }
  | .macUpdate =>
      s.macActive = true ∧ inBuffer s s.src s.len ∧ ∃ D, readMessage s s.src s.len = .ok D
        ∧ u = { s with macAcc := BitVec.ofNat 130 (absorb s.macAcc.toNat s.macR.toNat D) }
  | .macFinal =>
      s.macActive = true
        ∧ u = { s with tag := tagWords (finishTag s.macAcc.toNat s.macS.toNat), macR := 0#128, macS := 0#128,
                       macAcc := 0#130, macActive := false }
  | .mac =>
      inBuffer s s.src s.len ∧ ∃ D, readMessage s s.src s.len = .ok D
        ∧ u = { s with tag := tagWords (poly D (mackeyBytes s)) }
  | .keygen =>
      let S := perm (initState s.key 0#32 s.nonce)
      u = { s with mackey := #v[S[0], S[1], S[2], S[3], S[4], S[5], S[6], S[7]] }
  | .aeadSeal => ∃ ct tag, sealOutput s = .ok (ct, tag) ∧ u = { storeOutput s ct with tag := tagWords tag }
  | .aeadOpen => ∃ pt, openOutput s = .ok pt ∧ u = storeOutput s pt

/-- Everything a command can do when it answers a next state: report an error and leave the rest alone, or perform its
rule. -/
theorem exec_next {i : Instr} {s t : State} (h : exec i s = .next t) :
    (∃ e, e ≠ .none ∧ t = complete e s) ∨ ∃ u, commandEffect i s u ∧ t = complete .none u := by
  cases i with
  | init => exact .inr ⟨_, rfl, by simpa [exec, execInit] using h.symm⟩
  | qround a b c d =>
    simp only [exec, execQround] at h
    split at h
    · rename_i hd
      exact .inr ⟨_, ⟨hd, rfl⟩, by simpa using h.symm⟩
    · exact .inl ⟨.aliased, by decide, by simpa using h.symm⟩
  | dround => exact .inr ⟨_, rfl, by simpa [exec, execDround] using h.symm⟩
  | permute => exact .inr ⟨_, rfl, by simpa [exec, execPermute] using h.symm⟩
  | block => exact .inr ⟨_, rfl, by simpa [exec, execBlock] using h.symm⟩
  | xor =>
    simp only [exec, execXor] at h
    rcases xorOutput_cases s with ⟨_, hx⟩ | ⟨_, ⟨_, hx⟩ | ⟨_, ⟨_, hx⟩ | ⟨_, ⟨D, _, hx⟩ | ⟨x, _, hx⟩⟩⟩⟩ <;>
      rw [hx] at h
    · exact .inl ⟨.range, by decide, by simpa using h.symm⟩
    · exact .inl ⟨.overlap, by decide, by simpa using h.symm⟩
    · exact .inl ⟨.counter, by decide, by simpa using h.symm⟩
    · exact .inr ⟨_, ⟨_, hx, rfl⟩, by simpa using h.symm⟩
    · simp at h
  | macInit => exact .inr ⟨_, rfl, by simpa [exec, execMacInit] using h.symm⟩
  | macUpdate =>
    simp only [exec, execMacUpdate] at h
    split at h
    · exact .inl ⟨.macState, by decide, by simpa using h.symm⟩
    · split at h
      · exact .inl ⟨.range, by decide, by simpa using h.symm⟩
      · rename_i ha hr
        rcases readMessage_cases s s.src s.len with ⟨D, hD, _⟩ | ⟨x, hx⟩
        · rw [hD] at h
          exact .inr ⟨_, ⟨by simpa using ha, (rangeOk_iff _ _ _).mp (by simpa using hr), D, hD, rfl⟩,
            by simpa using h.symm⟩
        · simp [hx] at h
  | macFinal =>
    simp only [exec, execMacFinal] at h
    split at h
    · exact .inl ⟨.macState, by decide, by simpa using h.symm⟩
    · rename_i ha
      exact .inr ⟨_, ⟨by simpa using ha, rfl⟩, by simpa using h.symm⟩
  | mac =>
    simp only [exec, execMac] at h
    split at h
    · exact .inl ⟨.range, by decide, by simpa using h.symm⟩
    · rename_i hr
      rcases readMessage_cases s s.src s.len with ⟨D, hD, _⟩ | ⟨x, hx⟩
      · rw [hD] at h
        exact .inr ⟨_, ⟨(rangeOk_iff _ _ _).mp (by simpa using hr), D, hD, rfl⟩, by simpa using h.symm⟩
      · simp [hx] at h
  | keygen => exact .inr ⟨_, rfl, by simpa [exec, execKeygen] using h.symm⟩
  | aeadSeal =>
    simp only [exec, execSeal] at h
    rcases hs : sealOutput s with e | ⟨ct, tag⟩
    · rw [hs] at h
      rcases aeadOperands_cases s with ⟨_, hx⟩ | ⟨_, ⟨_, hx⟩ | ⟨_, ⟨_, hx⟩ | ⟨_, ⟨M, A, _, _, hx⟩ | ⟨x, _, hx⟩⟩⟩⟩ <;>
        simp only [sealOutput, hx, Except.error.injEq, reduceCtorEq] at hs <;> subst hs
      · exact .inl ⟨.range, by decide, by simpa using h.symm⟩
      · exact .inl ⟨.overlap, by decide, by simpa using h.symm⟩
      · exact .inl ⟨.counter, by decide, by simpa using h.symm⟩
      · simp at h
    · rw [hs] at h
      exact .inr ⟨_, ⟨ct, tag, hs, rfl⟩, by simpa using h.symm⟩
  | aeadOpen =>
    simp only [exec, execOpen] at h
    rcases hs : openOutput s with e | pt
    · rw [hs] at h
      rcases aeadOperands_cases s with ⟨_, hx⟩ | ⟨_, ⟨_, hx⟩ | ⟨_, ⟨_, hx⟩ | ⟨_, ⟨M, A, _, _, hx⟩ | ⟨x, _, hx⟩⟩⟩⟩ <;>
        simp only [openOutput, hx, Except.error.injEq] at hs
      · subst hs
        exact .inl ⟨.range, by decide, by simpa using h.symm⟩
      · subst hs
        exact .inl ⟨.overlap, by decide, by simpa using h.symm⟩
      · subst hs
        exact .inl ⟨.counter, by decide, by simpa using h.symm⟩
      · split at hs
        · cases hs
          exact .inl ⟨.auth, by decide, by simpa using h.symm⟩
        · simp at hs
      · subst hs
        simp at h
    · rw [hs] at h
      exact .inr ⟨_, ⟨pt, hs, rfl⟩, by simpa using h.symm⟩

/-- No command is refused. -/
theorem exec_not_refused (i : Instr) (s : State) (x : Refusal) : exec i s ≠ .refused x := by
  cases i <;>
    simp only [exec, execInit, execQround, execDround, execPermute, execBlock, execXor, execMacInit, execMacUpdate,
      execMacFinal, execMac, execKeygen, execSeal, execOpen] <;>
    exact finish_not_refused _ _ _

/-- Everything a completion can do when it answers a next state (R65). -/
theorem completion_next {s t : State} (h : completion s = .next t) :
    (∃ e, e ≠ .none ∧ t = complete e s)
      ∨ ∃ i u, decode s.cmdWord = .ok i ∧ commandEffect i s u ∧ t = complete .none u := by
  simp only [completion] at h
  split at h
  · rename_i i hi
    rcases exec_next h with h | ⟨u, hu, ht⟩
    · exact .inl h
    · exact .inr ⟨i, u, hi, hu, ht⟩
  · rename_i e _
    exact .inl ⟨decodeErrCode e, by cases e <;> decide, by simpa [raiseError] using h.symm⟩

/-- No completion is refused. -/
theorem completion_not_refused (s : State) (x : Refusal) : completion s ≠ .refused x := by
  simp only [completion]
  split
  · exact exec_not_refused _ _ _
  · simp [raiseError]

end Sys2Proof.Machine
end

