-- ==== Sys2Proof/Laws/Authenticator.lean ====
section
/-! SUPPORT. The spec lemmas of the authenticator: absorbing, bits of a byte string's integer, and the session's halves. -/

namespace Sys2Proof.Machine

/-- Absorbing nothing (R94). -/
@[simp] theorem absorb_nil (acc r : Nat) : absorb acc r [] = acc := by
  simp [absorb]

/-- Absorbing a non-empty string takes one step on its first block (R94). -/
theorem absorb_cons (acc r : Nat) {bs : List Byte} (h : bs ≠ []) :
    absorb acc r bs = absorb (macStep r acc (bs.take 16)) r (bs.drop 16) := by
  simp [absorb, chunks_cons (n := 16) (by omega) h]

/-- The sum of a step (R94). -/
theorem macStep_eq (r acc : Nat) (b : List Byte) :
    macStep r acc b = ((acc + (leInt b + 2 ^ (8 * b.length))) * r) % (2 ^ 130 - 5) := by
  have : (256 : Nat) ^ b.length = 2 ^ (8 * b.length) := by rw [show (256 : Nat) = 2 ^ 8 by rfl, ← Nat.pow_mul]
  simp [macStep, fieldPrime, leInt_append, this]

theorem macStep_lt (r acc : Nat) (b : List Byte) : macStep r acc b < 2 ^ 130 - 5 :=
  Nat.mod_lt _ (by decide)

/-- Absorbing keeps a reduced accumulator reduced. -/
theorem absorb_lt {acc : Nat} (r : Nat) {bs : List Byte} (h : bs ≠ [] ∨ acc < 2 ^ 130 - 5) :
    absorb acc r bs < 2 ^ 130 - 5 := by
  induction bs using chunk_induction (n := 16) (by omega) generalizing acc with
  | nil => simpa using h
  | cons bs hb ih =>
    rw [absorb_cons _ _ hb]
    exact ih (.inr (macStep_lt _ _ _))

/-- The accumulator of a session holds what absorbing gives, whatever the session absorbed before (R99). -/
theorem absorb_toNat (acc : BitVec 130) (r : Nat) (bs : List Byte) :
    (BitVec.ofNat 130 (absorb acc.toNat r bs)).toNat = absorb acc.toNat r bs := by
  rw [BitVec.toNat_ofNat]
  apply Nat.mod_eq_of_lt
  by_cases h : bs = []
  · subst h
    simpa using acc.isLt
  · exact Nat.lt_of_lt_of_le (absorb_lt r (.inl h)) (by decide)

/-- Bit `j` of a byte string's integer is bit `j mod 8` of its byte `j / 8` (R11). -/
theorem testBit_leInt (bs : List Byte) (j : Nat) (h : j / 8 < bs.length) :
    (leInt bs).testBit j = (bs[j / 8]).getLsbD (j % 8) := by
  induction bs generalizing j with
  | nil => simp at h
  | cons b bs ih =>
    have e : b.toNat + 256 * leInt bs = 2 ^ 8 * leInt bs + b.toNat := by omega
    rw [leInt_cons, e, Nat.testBit_two_pow_mul_add _ b.isLt]
    by_cases hj : j < 8
    · have h0 : j / 8 = 0 := by omega
      have h1 : j % 8 = j := by omega
      simp [hj, h0, h1, BitVec.getLsbD]
    · have h0 : j / 8 = (j - 8) / 8 + 1 := by omega
      have h1 : j % 8 = (j - 8) % 8 := by omega
      simp only [List.length_cons] at h
      rw [if_neg hj, ih _ (by omega)]
      simp [h0, h1]

/-- Clamping clears the clamped bits and no other (R93). -/
theorem clamp_getLsbD (r : BitVec 128) (j : Fin 128) :
    (clamp r).getLsbD j.val = (r.getLsbD j.val && !clampedBit j.val) := by
  have : ∀ j : Fin 128, (0x0FFFFFFC0FFFFFFC0FFFFFFC0FFFFFFF#128).getLsbD j.val = !clampedBit j.val := by decide
  rw [clamp, BitVec.getLsbD_and, this]

theorem clamp_clamp (r : BitVec 128) : clamp (clamp r) = clamp r := by
  simp [clamp, BitVec.and_assoc]

@[simp] theorem clamp_zero : clamp 0#128 = 0#128 := by decide

/-! ### The commands of a session -/

/-- MAC_UPDATE in an open session (R99). -/
theorem exec_macUpdate {s : State} {D : List Byte} (ha : s.macActive = true) (hb : inBuffer s s.src s.len)
    (hr : readMessage s s.src s.len = .ok D) :
    exec .macUpdate s
      = .next (complete .none { s with macAcc := BitVec.ofNat 130 (absorb s.macAcc.toNat s.macR.toNat D) }) := by
  simp [exec, execMacUpdate, ha, (rangeOk_iff _ _ _).mpr hb, hr]

/-- MAC (R101). -/
theorem exec_mac {s : State} {D : List Byte} (hb : inBuffer s s.src s.len) (hr : readMessage s s.src s.len = .ok D) :
    exec .mac s = .next (complete .none { s with tag := tagWords (poly D (mackeyBytes s)) }) := by
  simp [exec, execMac, (rangeOk_iff _ _ _).mpr hb, hr]

/-- A message operand depends on the buffer alone. -/
theorem readMessage_congr {s t : State} (h : t.mem = s.mem) (a n : Word) : readMessage t a n = readMessage s a n := by
  simp [readMessage, h]

end Sys2Proof.Machine
end

