-- ==== Sys2Proof/Laws/Bus.lean ====
section
/-! SUPPORT. The spec lemmas of the register map, of host accesses, and of a step: everything each can do. -/

namespace Sys2Proof.Machine

/-! ### The register map (R17, R39) -/

/-- The register at a register's offset is that register. -/
@[simp] theorem regAt_regOffset (r : Reg) : regAt (regOffset r) = some r := by
  cases r with
  | nonce i => revert i; decide
  | key i => revert i; decide
  | mackey i => revert i; decide
  | state i => revert i; decide
  | tag i => revert i; decide
  | acc i => revert i; decide
  | _ => rfl

/-- The register at an offset has that offset. -/
theorem regOffset_of_regAt {off : Nat} {r : Reg} (h : regAt off = some r) : regOffset r = off := by
  have := List.find?_some h
  simpa using this

/-- Two registers at one offset are one register. -/
theorem regOffset_injective {r r' : Reg} (h : regOffset r = regOffset r') : r = r' := by
  have := regAt_regOffset r
  rw [h, regAt_regOffset] at this
  exact (Option.some.inj this).symm

/-- Every register's offset allows an aligned four-byte access (R17, R48). -/
@[simp] theorem legalRegister_regOffset (r : Reg) : legalRegister (regOffset r) .w4 = true := by
  cases r with
  | nonce i => revert i; decide
  | key i => revert i; decide
  | mackey i => revert i; decide
  | state i => revert i; decide
  | tag i => revert i; decide
  | acc i => revert i; decide
  | _ => rfl

theorem legalRegister_iff (off : Nat) (w : Width) :
    legalRegister off w = true ↔ off < 0x1000 ∧ w = .w4 ∧ off % 4 = 0 := by
  simp only [legalRegister, Bool.and_eq_true, decide_eq_true_eq, beq_iff_eq, and_assoc, bufferBase]

theorem legalBuffer_iff (c : Config) (off : Nat) (w : Width) :
    legalBuffer c off w = true ↔ 0x1000 ≤ off ∧ off < 0x1000 + c.bufBytes ∧ off % widthBytes w = 0 := by
  simp only [legalBuffer, Bool.and_eq_true, decide_eq_true_eq, beq_iff_eq, and_assoc, bufferBase]

/-- A legal buffer access is no register access. -/
theorem not_legalRegister_of_buffer {off : Nat} {w : Width} (h : 0x1000 ≤ off) : legalRegister off w = false := by
  rw [← Bool.not_eq_true, legalRegister_iff]
  omega

/-- The reserved offsets of the register space (R39). -/
theorem regAt_eq_none_iff {off : Nat} (h4 : off % 4 = 0) (hl : off < 0x1000) :
    regAt off = none ↔ off = 0x038 ∨ off = 0x03C ∨ 0x0E4 ≤ off := by
  constructor
  · intro hn
    by_contra hc
    have key : ∀ k : Fin 57, regAt (4 * k.val) = none → k.val = 14 ∨ k.val = 15 := by decide
    have := key ⟨off / 4, by omega⟩ (by simpa [show 4 * (off / 4) = off by omega] using hn)
    simp only at this
    omega
  · intro h
    rw [regAt, List.find?_eq_none]
    intro r _ hr
    simp only [beq_iff_eq] at hr
    cases r <;> simp only [regOffset] at hr <;> omega

/-! ### Accesses to a register -/

/-- A read of a register (R16, R53). -/
@[simp] theorem busRead_reg (s : State) (r : Reg) :
    busRead s (regOffset r) .w4 =
      .ok (readResponse (if s.busy && hiddenWhileBusy r then 0#32 else readReg s r)) := by
  simp [busRead]

/-- A write of a register (R16, R52). -/
@[simp] theorem busWrite_reg (s : State) (r : Reg) (v : Word) :
    busWrite s (regOffset r) .w4 v =
      (if s.busy && lockedWhileBusy r then dropWrite s else writeReg s v r, writeResponse) := by
  simp only [busWrite, legalRegister_regOffset, regAt_regOffset, if_true]

/-- Everything a soft reset can leave (R134, R135). -/
theorem softReset_cases (s : State) :
    ∃ m, softReset s = resetRegisters m s ∧
      (m = s.mem
        ∨ (s.busy = true ∧ ∃ i out, decode s.cmdWord = .ok i ∧ bufferOutput i (operandsFilled s) = .ok out
            ∧ m = mixBytes s.freeTick s.mem s.dst.toNat out)) := by
  refine ⟨_, rfl, ?_⟩
  rcases hb : s.busy with _ | _
  · exact .inl rfl
  · simp only [if_true, abortBuffer]
    split
    · exact .inl rfl
    · rename_i i hi
      split
      · rename_i out ho
        exact .inr ⟨trivial, i, out, hi, ho, rfl⟩
      · exact .inl rfl

/-! ### Everything a host access can do -/

/-- What a write leaves: nothing changed, a dropped write, a register written, or buffer bytes written. -/
theorem busWrite_cases {s t : State} {off : Nat} {w : Width} {v : Word} {r : BusResponse}
    (h : busWrite s off w v = (t, r)) :
    t = s
      ∨ (s.busy = true ∧ t = dropWrite s)
      ∨ (∃ g, off = regOffset g ∧ w = .w4 ∧ (s.busy && lockedWhileBusy g) = false ∧ t = writeReg s v g)
      ∨ (s.busy = false ∧ 0x1000 ≤ off ∧ off < 0x1000 + s.cfg.bufBytes ∧ off % widthBytes w = 0
          ∧ t = { s with mem := writeBytes s.mem (off - 0x1000) (busBytes (widthBytes w) v) }) := by
  simp only [busWrite] at h
  split at h
  · rename_i hl
    obtain ⟨_, rfl, _⟩ := (legalRegister_iff _ _).mp hl
    split at h
    · cases h
      exact .inl rfl
    · rename_i g hg
      have hoff := (regOffset_of_regAt hg).symm
      split at h
      · rename_i hb
        cases h
        exact .inr (.inl ⟨(Bool.and_eq_true _ _ ▸ hb).1, rfl⟩)
      · rename_i hb
        cases h
        exact .inr (.inr (.inl ⟨g, hoff, rfl, by simpa using hb, rfl⟩))
  · split at h
    · rename_i hl
      obtain ⟨h1, h2, h3⟩ := (legalBuffer_iff _ _ _).mp hl
      split at h
      · rename_i hb
        cases h
        exact .inr (.inl ⟨hb, rfl⟩)
      · rename_i hb
        cases h
        exact .inr (.inr (.inr ⟨by simpa using hb, h1, h2, h3, rfl⟩))
    · cases h
      exact .inl rfl

/-- What a host access leaves, when the step goes on: the access answered without a bus error, the answer recorded. -/
theorem hostAccess_next {s t : State} {a : Access} (h : hostAccess s a = .next t) :
    ∃ u r, busAccess s a = .ok (u, r) ∧ r.error = false ∧ t = { u with responses := r :: u.responses } := by
  simp only [hostAccess] at h
  split at h
  · simp at h
  · rename_i u r hu
    split at h
    · simp at h
    · rename_i hr
      exact ⟨u, r, hu, by simpa using hr, by simpa using h.symm⟩

theorem hostAccess_not_refused (s : State) (a : Access) (x : Refusal) : hostAccess s a ≠ .refused x := by
  simp only [hostAccess]
  split
  · simp
  · split <;> simp

/-- A read leaves the state as it was (R51). -/
theorem busAccess_read {s u : State} {off : Nat} {w : Width} {r : BusResponse}
    (h : busAccess s (.read off w) = .ok (u, r)) : u = s ∧ busRead s off w = .ok r := by
  simp only [busAccess] at h
  split at h
  · rename_i r' hr
    cases h
    exact ⟨rfl, hr⟩
  · simp at h

/-- A read of a `wait` never faults: it records `STATUS`, whose bit 0 is `BUSY`, and leaves the block as it was (R51,
R53, R73). -/
theorem pollStatus_next (s : State) (rest : List Input) :
    pollStatus s rest
      = .next { s with inputs := rest, responses := readResponse (statusWord s) :: s.responses } := by
  have h := busRead_reg { s with inputs := rest } .status
  simp only [hiddenWhileBusy, Bool.and_false, Bool.false_eq_true, if_false] at h
  simp only [pollStatus, hostAccess, busAccess, h]
  rfl

/-! ### Everything a step can do -/

/-- A step that goes on is one of these: nothing (idle, nothing pending, or the Sequencer's turn while idle), a
completion, a host read (of the program, or of a `wait` that ends or goes on), a host write, or a power-on reset. -/
theorem step_next {s t : State} (h : step s = .next t) :
    (s.busy = false ∧ (t = s ∨ ∃ rest, s.inputs = .sequencer :: rest ∧ t = { s with inputs := rest }))
      ∨ (s.busy = true ∧ ∃ s', (s' = s ∨ s' = { s with inputs := s.inputs.tail }) ∧ completion s' = .next t)
      ∨ (∃ rest off w r, (s.inputs = .access (.read off w) :: rest
            ∨ (s.busy = false ∧ ∃ n, s.inputs = .waitIdle n :: rest)
            ∨ (s.busy = true ∧ ∃ n later, s.inputs = .waitIdle (n + 1) :: later ∧ rest = .waitIdle n :: later))
          ∧ busRead { s with inputs := rest } off w = .ok r ∧ r.error = false
          ∧ t = { s with inputs := rest, responses := r :: s.responses })
      ∨ (∃ rest off w v u r, s.inputs = .access (.write off w v) :: rest
          ∧ busWrite { s with inputs := rest } off w v = (u, r) ∧ r.error = false
          ∧ t = { u with responses := r :: u.responses })
      ∨ ∃ rest, s.inputs = .powerOnReset :: rest ∧ t = powerOnReset { s with inputs := rest } := by
  simp only [step, takeTurn] at h
  rcases hi : s.inputs with _ | ⟨x, rest⟩
  · simp only [hi] at h
    by_cases hb : s.busy = true
    · rw [if_pos hb] at h
      exact .inr (.inl ⟨hb, s, .inl rfl, h⟩)
    · rw [if_neg hb] at h
      exact .inl ⟨by simpa using hb, .inl (by simpa using h.symm)⟩
  · cases x with
    | access a =>
      simp only [hi] at h
      obtain ⟨u, r, hu, hr, rfl⟩ := hostAccess_next h
      cases a with
      | read off w =>
        obtain ⟨rfl, hrd⟩ := busAccess_read hu
        exact .inr (.inr (.inl ⟨rest, off, w, r, .inl rfl, hrd, hr, rfl⟩))
      | write off w v => exact .inr (.inr (.inr (.inl ⟨rest, off, w, v, u, r, rfl, Except.ok.inj hu, hr, rfl⟩)))
    | waitIdle n =>
      cases n with
      | zero =>
        simp only [hi] at h
        by_cases hb : s.busy = true
        · rw [if_pos hb] at h
          exact .inr (.inl ⟨hb, s, .inl rfl, h⟩)
        · rw [if_neg hb] at h
          obtain ⟨u, r, hu, hr, rfl⟩ := hostAccess_next h
          obtain ⟨rfl, hrd⟩ := busAccess_read hu
          exact .inr (.inr (.inl ⟨rest, _, _, r, .inr (.inl ⟨by simpa using hb, 0, rfl⟩), hrd, hr, rfl⟩))
      | succ n =>
        simp only [hi] at h
        obtain ⟨u, r, hu, hr, rfl⟩ := hostAccess_next h
        obtain ⟨rfl, hrd⟩ := busAccess_read hu
        by_cases hb : s.busy = true
        · rw [if_pos hb] at hrd ⊢
          exact .inr (.inr (.inl ⟨_, _, _, r, .inr (.inr ⟨hb, n, rest, rfl, rfl⟩), hrd, hr, rfl⟩))
        · rw [if_neg hb] at hrd ⊢
          exact .inr (.inr (.inl ⟨_, _, _, r, .inr (.inl ⟨by simpa using hb, n + 1, rfl⟩), hrd, hr, rfl⟩))
    | sequencer =>
      simp only [hi] at h
      by_cases hb : s.busy = true
      · rw [if_pos hb] at h
        exact .inr (.inl ⟨hb, _, .inr rfl, h⟩)
      · rw [if_neg hb] at h
        exact .inl ⟨by simpa using hb, .inr ⟨rest, rfl, by simpa using h.symm⟩⟩
    | powerOnReset =>
      simp only [hi] at h
      exact .inr (.inr (.inr (.inr ⟨rest, rfl, by simpa using h.symm⟩)))

/-- No step is refused. -/
theorem step_not_refused (s : State) (x : Refusal) : step s ≠ .refused x := by
  simp only [step, takeTurn]
  split
  · split
    · exact completion_not_refused _ _
    · simp
  · exact hostAccess_not_refused _ _ _
  · split
    · exact completion_not_refused _ _
    · exact hostAccess_not_refused _ _ _
  · exact hostAccess_not_refused _ _ _
  · split
    · exact completion_not_refused _ _
    · simp
  · simp

/-! ### Runs of several steps -/

/-- A run that goes on with its first step. -/
theorem run_of_next {k : Nat} {s t : State} (h : step s = .next t) :
    Host.Core.run Sys2Proof.core (k + 1) s = Host.Core.run Sys2Proof.core k t := by
  refine (Host.Core.run.eq_2 Sys2Proof.core s k).trans ?_
  have : Sys2Proof.core.step s = .next t := h
  rw [this]

/-- A run that faults in its first step. -/
theorem run_of_fault {k : Nat} {s : State} {f : Fault} (h : step s = .fault f) :
    Host.Core.run Sys2Proof.core (k + 1) s = .fault f := by
  refine (Host.Core.run.eq_2 Sys2Proof.core s k).trans ?_
  have : Sys2Proof.core.step s = .fault f := h
  rw [this]

/-- A run of no step. -/
theorem runsTo_zero (s t : State) : runsTo 0 s t ↔ s = t := by
  change (Host.Outcome.next s : Host.Outcome State Fault Refusal) = .next t ↔ s = t
  simp

end Sys2Proof.Machine
end

