-- ==== Sys2Proof/Laws/Decode.lean ====
section
/-! SUPPORT. The fields of a command word as numbers (R67, R68), and which rows of the opcode table overlap. -/

namespace Sys2Proof

theorem opcodeField_toNat (w : Word) : (opcodeField w).toNat = w.toNat % 256 := by
  simp [opcodeField]

theorem indexField_val (w : Word) (lo : Nat) : (indexField w lo).val = w.toNat / 2 ^ lo % 16 := by
  simp [indexField, Nat.shiftRight_eq_div_pow]

/-- Words whose bits from `k` on are 0 are those below `2^k`. -/
theorem and_highBits_eq_zero (w mask : Word) (k : Nat) (hlow : ∀ i < k, mask.getLsbD i = false)
    (hhigh : ∀ i < 32, k ≤ i → mask.getLsbD i = true) : w &&& mask = 0#32 ↔ w.toNat < 2 ^ k := by
  constructor
  · intro h
    apply Nat.lt_pow_two_of_testBit
    intro i hi
    by_cases hi32 : i < 32
    · have := congrArg (fun v => BitVec.getLsbD v i) h
      simp only [BitVec.getLsbD_and, hhigh i hi32 hi, Bool.and_true, BitVec.getLsbD_zero] at this
      exact this
    · exact BitVec.getLsbD_of_ge w i (by omega)
  · intro h
    apply BitVec.eq_of_getLsbD_eq
    intro i hi
    by_cases hik : i < k
    · simp [hlow i hik]
    · have : w.getLsbD i = false := by
        rw [BitVec.getLsbD]
        exact Nat.testBit_lt_two_pow (lt_of_lt_of_le h (Nat.pow_le_pow_right (by omega) (by omega)))
      simp [this]

/-- The reserved bits of a QROUND word are 0 exactly when it is below 2^24 (R67). -/
theorem reservedClear_qround (a b c d : Fin 16) (w : Word) :
    reservedClear (.qround a b c d) w = true ↔ w.toNat < 2 ^ 24 := by
  simp only [reservedClear, beq_iff_eq]
  exact and_highBits_eq_zero w (~~~0x00FFFFFF#32) 24 (by decide) (by decide)

/-- The reserved bits of any other command word are 0 exactly when it is below 2^8 (R67). -/
theorem reservedClear_plain (i : Instr) (w : Word) (h : allowedBits i = 0x000000FF#32) :
    reservedClear i w = true ↔ w.toNat < 2 ^ 8 := by
  simp only [reservedClear, beq_iff_eq, h]
  exact and_highBits_eq_zero w (~~~0x000000FF#32) 8 (by decide) (by decide)

/-- The number of a QROUND word (R69). -/
theorem encode_qround_toNat (a b c d : Fin 16) :
    (encode (.qround a b c d)).toNat = 2 + a.val * 2 ^ 8 + b.val * 2 ^ 12 + c.val * 2 ^ 16 + d.val * 2 ^ 20 := by
  have ha := a.isLt
  have hb := b.isLt
  have hc := c.isLt
  have hd := d.isLt
  have hor : ∀ x y k : Nat, x < 2 ^ k → x ||| y * 2 ^ k = x + y * 2 ^ k := fun x y k h => by
    rw [Nat.mul_comm, Nat.or_comm, ← Nat.two_pow_add_eq_or_of_lt h]
    omega
  have hp : ∀ (i : Fin 16) (lo : Nat), lo ≤ 20 → (placeIndex i lo).toNat = i.val * 2 ^ lo := fun i lo hlo => by
    have hi := i.isLt
    have h2 : 2 ^ lo ≤ 2 ^ 20 := Nat.pow_le_pow_right (by omega) hlo
    have hlt : i.val * 2 ^ lo < 2 ^ 32 := by nlinarith
    simp only [placeIndex, BitVec.toNat_shiftLeft, BitVec.toNat_ofNat, Nat.shiftLeft_eq]
    rw [Nat.mod_eq_of_lt (by omega : i.val < 2 ^ 32), Nat.mod_eq_of_lt hlt]
  simp only [encode, BitVec.toNat_or, hp _ 8 (by omega), hp _ 12 (by omega), hp _ 16 (by omega), hp _ 20 (by omega),
    BitVec.toNat_ofNat]
  rw [Nat.mod_eq_of_lt (by omega), hor _ _ 8 (by omega), hor _ _ 12 (by omega), hor _ _ 16 (by omega),
    hor _ _ 20 (by omega)]

/-- One instance of each row of spec/opcode_table.json. -/
def tableRows : List OpcodeRow :=
  [Instr.init, .qround 0 1 2 3, .dround, .permute, .block, .xor, .macInit, .macUpdate, .macFinal, .mac, .keygen,
    .aeadSeal, .aeadOpen].map opcodeRow

/-- No two rows of the opcode table overlap: some bit both rows fix differs. -/
theorem tableRows_disjoint : tableRows.Pairwise fun r q => r.pattern &&& q.mask ≠ q.pattern &&& r.mask := by decide

end Sys2Proof
end

