-- ==== Sys2Proof/Laws/PerInstr.lean ====
section
/-! SUPPORT. Facts about every command, one lemma a constructor: the encoding of a command lies in its own row of the
opcode table (R69, R70). -/

namespace Sys2Proof.Laws.EncodedRow

/-- The command's word matches the mask and match of its row. -/
abbrev Statement (i : Instr) : Prop := (opcodeRow i).matchesWord (encode i) = true

theorem init : Statement .init := by decide

theorem qround (qa qb qc qd : Fin 16) : Statement (.qround qa qb qc qd) := by
  have hn := encode_qround_toNat qa qb qc qd
  have ha := qa.isLt
  have hb := qb.isLt
  have hc := qc.isLt
  have hd := qd.isLt
  simp only [Statement, OpcodeRow.matchesWord, opcodeRow, beq_iff_eq]
  have hlow : encode (.qround qa qb qc qd) &&& 0x000000FF#32 = 0x00000002#32 := by
    apply BitVec.eq_of_toNat_eq
    have : (0x000000FF#32).toNat = 2 ^ 8 - 1 := rfl
    rw [BitVec.toNat_and, this, Nat.and_two_pow_sub_one_eq_mod, hn]
    simp only [BitVec.toNat_ofNat]
    omega
  have hhigh : encode (.qround qa qb qc qd) &&& ~~~0x00FFFFFF#32 = 0#32 :=
    (and_highBits_eq_zero _ (~~~0x00FFFFFF#32) 24 (by decide) (by decide)).mpr (by omega)
  have hm : (0xFF0000FF#32 : Word) = 0x000000FF#32 ||| ~~~0x00FFFFFF#32 := by decide
  rw [hm, BitVec.and_or_distrib_left, hlow, hhigh]
  decide

theorem dround : Statement .dround := by decide

theorem permute : Statement .permute := by decide

theorem block : Statement .block := by decide

theorem xor : Statement .xor := by decide

theorem macInit : Statement .macInit := by decide

theorem macUpdate : Statement .macUpdate := by decide

theorem macFinal : Statement .macFinal := by decide

theorem mac : Statement .mac := by decide

theorem keygen : Statement .keygen := by decide

theorem aeadSeal : Statement .aeadSeal := by decide

theorem aeadOpen : Statement .aeadOpen := by decide

end Sys2Proof.Laws.EncodedRow
end

