-- ==== Sys2Proof/Laws/Permutation.lean ====
section
/-! SUPPORT. The spec lemmas of the permutation core: rotation, quarter-round, double rounds, and QROUND. -/

namespace Sys2Proof.Machine

/-- `rotl32` is rotation (R10). -/
theorem rotl32_eq (v : Word) (n : Nat) (h : n < 32) : rotl32 v n = v.rotateLeft n := by
  rw [BitVec.rotateLeft_def, Nat.mod_eq_of_lt h]
  rfl

/-- Each word after a quarter-round in place (R75). -/
theorem quarterRoundAt_getElem (S : Vector Word 16) (a b c d k : Fin 16) :
    (quarterRoundAt S a b c d)[k] =
      if k = d then (quarterRound S[a] S[b] S[c] S[d]).2.2.2
      else if k = c then (quarterRound S[a] S[b] S[c] S[d]).2.2.1
      else if k = b then (quarterRound S[a] S[b] S[c] S[d]).2.1
      else if k = a then (quarterRound S[a] S[b] S[c] S[d]).1
      else S[k] := by
  have hv : ∀ x : Fin 16, (x.val = k.val) = (k = x) := fun x => propext ⟨fun h => Fin.ext h.symm, fun h => h ▸ rfl⟩
  simp [quarterRoundAt, Vector.getElem_set, hv]

/-- A quarter-round leaves every word but its four. -/
theorem quarterRoundAt_other (S : Vector Word 16) {a b c d k : Fin 16} (ha : k ≠ a) (hb : k ≠ b) (hc : k ≠ c)
    (hd : k ≠ d) : (quarterRoundAt S a b c d)[k] = S[k] := by
  rw [quarterRoundAt_getElem, if_neg hd, if_neg hc, if_neg hb, if_neg ha]

/-- Double rounds are an iteration (R78). -/
theorem doubleRounds_eq_iterate (n : Nat) (S : Vector Word 16) : doubleRounds n S = doubleRound^[n] S := by
  induction n generalizing S with
  | zero => rfl
  | succ n ih => rw [doubleRounds, ih, Function.iterate_succ_apply]

/-- Each word of a word-wise sum (R74). -/
theorem addWords_getElem (A B : Vector Word 16) (k : Fin 16) : (addWords A B)[k] = A[k] + B[k] := by
  fin_cases k <;> rfl

/-- QROUND with pairwise distinct indices (R84). -/
theorem exec_qround {s : State} {a b c d : Fin 16} (h : pairwiseDistinct a b c d = true) :
    exec (.qround a b c d) s = .next (complete .none { s with state := quarterRoundAt s.state a b c d }) := by
  simp [exec, execQround, h]

/-- QROUND with two equal indices (R84). -/
theorem exec_qround_aliased {s : State} {a b c d : Fin 16} (h : pairwiseDistinct a b c d = false) :
    exec (.qround a b c d) s = .next (complete .aliased s) := by
  simp [exec, execQround, h]

end Sys2Proof.Machine
end

