-- ==== Sys2Proof/Tests/Slice0.lean ====
section
/-! SUPPORT. The model's own tests: words written out from the encoding, the spec's test vectors one step at a time
(expected values are those of 95_test_vectors.md, named in each comment), and a witness for each statement that has
hypotheses. -/

set_option maxRecDepth 100000

namespace Sys2Proof.Tests

open Sys2Proof Sys2Proof.Machine

/-! ### Well-formedness -/

/-- The one check of `Instr.wellFormed` refuses each of the six ways two indices can be equal (V-QR6). -/
theorem test_wellFormed_refuses_equal_indices :
    (Instr.qround 0 0 1 2).wellFormed = false ∧ (Instr.qround 0 1 0 2).wellFormed = false
      ∧ (Instr.qround 0 1 2 0).wellFormed = false ∧ (Instr.qround 1 0 0 2).wellFormed = false
      ∧ (Instr.qround 1 0 2 0).wellFormed = false ∧ (Instr.qround 1 2 0 0).wellFormed = false := by decide

theorem test_wellFormed_accepts : (Instr.qround 2 7 8 13).wellFormed = true ∧ Instr.xor.wellFormed = true := by decide

/-! ### Decoding: words written out from R67 to R69 -/

theorem test_decode_init : decode 0b00000000000000000000000000000001#32 = .ok .init := by decide

/-- V-QR2: QROUND 2, 7, 8, 13. Four different indices: a swapped field would show. -/
theorem test_decode_qround : decode 0b000000001101_1000_0111_0010_00000010#32 = .ok (.qround 2 7 8 13) := by decide

theorem test_decode_dround : decode 0b00000000000000000000000000000011#32 = .ok .dround := by decide
theorem test_decode_permute : decode 0b00000000000000000000000000000100#32 = .ok .permute := by decide
theorem test_decode_block : decode 0b00000000000000000000000000000101#32 = .ok .block := by decide
theorem test_decode_xor : decode 0b00000000000000000000000000000110#32 = .ok .xor := by decide
theorem test_decode_macInit : decode 0b00000000000000000000000000000111#32 = .ok .macInit := by decide
theorem test_decode_macUpdate : decode 0b00000000000000000000000000001000#32 = .ok .macUpdate := by decide
theorem test_decode_macFinal : decode 0b00000000000000000000000000001001#32 = .ok .macFinal := by decide
theorem test_decode_mac : decode 0b00000000000000000000000000001010#32 = .ok .mac := by decide
theorem test_decode_keygen : decode 0b00000000000000000000000000001011#32 = .ok .keygen := by decide
theorem test_decode_seal : decode 0b00000000000000000000000000001100#32 = .ok .aeadSeal := by decide
theorem test_decode_open : decode 0b00000000000000000000000000001101#32 = .ok .aeadOpen := by decide

/-- V-DEC1 to V-DEC3: an opcode error, also where reserved bits are set. -/
theorem test_decode_opcode_errors :
    decode 0x00000000#32 = .error .opcode ∧ decode 0x0000000E#32 = .error .opcode
      ∧ decode 0x000000FF#32 = .error .opcode ∧ decode 0x8000000E#32 = .error .opcode := by decide

/-- V-DEC4, V-DEC5, V-INIT3, V-QR7: a reserved bit. -/
theorem test_decode_reserved_errors :
    decode 0x00000105#32 = .error .rsvd ∧ decode 0xFF321002#32 = .error .rsvd
      ∧ decode 0x00000101#32 = .error .rsvd ∧ decode 0x01210002#32 = .error .rsvd := by decide

/-- A word matches its row of spec/opcode_table.json and no other. -/
theorem test_rows :
    (opcodeRow (.qround 2 7 8 13)).matchesWord 0x00D87202#32 = true
      ∧ (opcodeRow .dround).matchesWord 0x00D87202#32 = false
      ∧ (opcodeRow .aeadOpen).matchesWord 0x0000000D#32 = true
      ∧ (opcodeRow .aeadOpen).matchesWord 0x0000010D#32 = false := by decide

/-! ### Small states -/

/-- The state an outcome goes on with. -/
def stateOf (o : Host.Outcome State Fault Refusal) : State :=
  match o with
  | .next t => t
  | .fault _ => State.reset
  | .refused _ => State.reset

/-- The outcome is a next state. -/
def goesOn (o : Host.Outcome State Fault Refusal) : Bool :=
  match o with
  | .next _ => true
  | .fault _ => false
  | .refused _ => false

theorem next_of_goesOn {o : Host.Outcome State Fault Refusal} (h : goesOn o = true) : o = .next (stateOf o) := by
  cases o with
  | next t => rfl
  | fault f => simp [goesOn] at h
  | refused r => simp [goesOn] at h

/-- The state a command leaves. -/
def after (i : Instr) (s : State) : State := stateOf (exec i s)

/-- A pending command word. -/
def pending (w : Word) : State := accept w State.reset

/-- Bytes placed in an empty buffer. -/
def bufferOf (l : List (Nat × List Byte)) : Memory := l.foldl (fun m x => writeBytes m x.1 x.2) []

/-- `K00` of 95_test_vectors.md. -/
def k00 : Vector Word 8 :=
  #v[0x03020100, 0x07060504, 0x0B0A0908, 0x0F0E0D0C, 0x13121110, 0x17161514, 0x1B1A1918, 0x1F1E1D1C]

/-- `K80` of 95_test_vectors.md. -/
def k80 : Vector Word 8 :=
  #v[0x83828180, 0x87868584, 0x8B8A8988, 0x8F8E8D8C, 0x93929190, 0x97969594, 0x9B9A9998, 0x9F9E9D9C]

/-- The registers of V-INIT1. -/
def blockRegs : State :=
  { State.reset with key := k00, nonce := #v[0x09000000, 0x4A000000, 0x00000000], counter := 1 }

/-- The registers of V-AEAD5, with its message at 0, its associated data at 0x40, and `DST` 0x80. -/
def sealRegs : State :=
  { State.reset with
    key := k80, nonce := #v[0x00000007, 0x43424140, 0x47464544], src := 0, dst := 0x80, len := 3, aad := 0x40,
    aadlen := 1, mem := bufferOf [(0, [0x61, 0x62, 0x63]), (0x40, [0x78])] }

/-- The registers of V-AEAD7: the ciphertext and tag of V-AEAD5. -/
def openRegs : State :=
  { sealRegs with
    src := 0x80, dst := 0xC0, tag := #v[0x2F8A8DA0, 0x16AB46AB, 0x0C569EC7, 0xF478CA34],
    mem := bufferOf [(0x40, [0x78]), (0x80, [0xFE, 0x19, 0x8A])] }

/-- The key of V-MAC1 and its message at 0. -/
def macRegs : State :=
  { State.reset with
    mackey := #v[0x78BED685, 0x336D5557, 0xFE52447F, 0xA806D542, 0x8A800301, 0xFDB20DFB, 0xAFF6BF4A, 0x1BF54941],
    mem := bufferOf
      [(0, [0x43, 0x72, 0x79, 0x70, 0x74, 0x6F, 0x67, 0x72, 0x61, 0x70, 0x68, 0x69, 0x63, 0x20, 0x46, 0x6F, 0x72, 0x75,
            0x6D, 0x20, 0x52, 0x65, 0x73, 0x65, 0x61, 0x72, 0x63, 0x68, 0x20, 0x47, 0x72, 0x6F, 0x75, 0x70])] }

/-- The session of V-MAC1, just opened: its clamped `r` and its `s`. -/
def sessionRegs : State :=
  { macRegs with
    macActive := true, macR := 0x0806D5400E52447C036D555408BED685#128, macS := 0x1BF54941AFF6BF4AFDB20DFB8A800301#128 }

/-! ### Commands, one step each -/

/-- V-INIT1. -/
theorem test_init :
    (after .init blockRegs).state
      = #v[0x61707865, 0x3320646E, 0x79622D32, 0x6B206574, 0x03020100, 0x07060504, 0x0B0A0908, 0x0F0E0D0C, 0x13121110,
           0x17161514, 0x1B1A1918, 0x1F1E1D1C, 0x00000001, 0x09000000, 0x4A000000, 0x00000000] := by decide

/-- V-QR8: the words of V-QR1 in `STATE4`, `STATE9`, `STATE14` and `STATE3`. -/
theorem test_qround :
    (after (.qround 4 9 14 3)
        { State.reset with state := #v[0, 0, 0, 0x01234567, 0x11111111, 0, 0, 0, 0, 0x01020304, 0, 0, 0, 0, 0x9B8D6F43, 0] }).state
      = #v[0, 0, 0, 0x5881C4BB, 0xEA2A92F4, 0, 0, 0, 0, 0xCB1CF8CE, 0, 0, 0, 0, 0x4581472E, 0] := by decide

/-- V-QR6. -/
theorem test_qround_alias :
    (after (.qround 0 0 1 2) State.reset).errcode = .aliased ∧ statusWord (after (.qround 0 0 1 2) State.reset) = 6 := by
  decide

/-- V-DR1. -/
theorem test_dround :
    (after .dround { State.reset with state := initState k00 1 #v[0x09000000, 0x4A000000, 0x00000000] }).state
      = #v[0xCD52E917, 0x85AB03B4, 0xB3457395, 0xF96DE7DD, 0xC4B7CD22, 0x5C2E187A, 0xC95EB461, 0x316C801A, 0x7BF7D740,
           0x7EDDD644, 0xF1A1BDF5, 0x761246CA, 0x6B0D58A3, 0x6798471A, 0xD737F167, 0xF173888D] := by decide

/-- V-PERM2. -/
theorem test_permute :
    (after .permute { State.reset with state := Vector.replicate 16 0xFFFFFFFF }).state
      = #v[0x254CFBE7, 0x254CFBE7, 0x254CFBE7, 0x254CFBE7, 0x44A57282, 0x44A57282, 0x44A57282, 0x44A57282, 0xD29D03A9,
           0xD29D03A9, 0xD29D03A9, 0xD29D03A9, 0x17161F6E, 0x17161F6E, 0x17161F6E, 0x17161F6E] := by decide

/-- V-BLK1. -/
theorem test_block :
    (after .block blockRegs).state
      = #v[0xE4E7F110, 0x15593BD1, 0x1FDD0F50, 0xC47120A3, 0xC7F4D1C7, 0x0368C033, 0x9AAA2204, 0x4E6CD4C3, 0x466482D2,
           0x09AA9F07, 0x05D7C214, 0xA2028BD9, 0xD19C12B5, 0xB94E16DE, 0xE883D0CB, 0x4E3C50A2] := by decide

/-- V-BLK4: `COUNTER` 0xFFFFFFFF is no error, and stays. -/
theorem test_block_last_counter :
    (after .block { blockRegs with counter := 0xFFFFFFFF }).state[15] = 0x46B1E6B7
      ∧ (after .block { blockRegs with counter := 0xFFFFFFFF }).errcode = .none
      ∧ (after .block { blockRegs with counter := 0xFFFFFFFF }).counter = 0xFFFFFFFF := by decide

/-- V-XOR2: byte 0x100 is the first keystream byte and byte 0x140 the first of the next counter's block. -/
theorem test_xor :
    let t := after .xor { blockRegs with len := 65, dst := 0x100, mem := bufferOf [(0, List.replicate 65 0)] }
    readByte t.mem 0x100 = some 0x10 ∧ readByte t.mem 0x13F = some 0x4E ∧ readByte t.mem 0x140 = some 0x0A
      ∧ t.counter = 1 ∧ t.errcode = .none := by decide

/-- V-XOR12: the range is checked before the counter. -/
theorem test_xor_first_error :
    (after .xor { blockRegs with src := 0xFFF, dst := 0xFFF, len := 2, counter := 0xFFFFFFFF }).errcode = .range := by
  decide

/-- V-MAC13. -/
theorem test_macInit :
    let t := after .macInit { State.reset with mackey := Vector.replicate 8 0xFFFFFFFF }
    t.macR = 0x0FFFFFFC0FFFFFFC0FFFFFFC0FFFFFFF#128 ∧ t.macS = BitVec.allOnes 128 ∧ t.macAcc = 0#130
      ∧ statusWord t = 0x22 := by decide

/-- V-MAC1, V-MAC11: the accumulator after the first 32 bytes. -/
theorem test_macUpdate :
    let t := after .macUpdate { sessionRegs with len := 32 }
    (accWord t 0, accWord t 1, accWord t 2, accWord t 3, accWord t 4)
      = (0x344B30DE, 0xCCCFB4EA, 0xB0337FA7, 0xD8ADAF23, 0x00000002) := by decide

/-- V-MAC16: the session is checked before the range. -/
theorem test_macUpdate_first_error :
    (after .macUpdate { macRegs with src := 0xFFF, len := 2 }).errcode = .macState := by decide

/-- V-MAC1, V-MAC11: the tag from the accumulator after the last block, and the closed session. -/
theorem test_macFinal :
    let t := after .macFinal { sessionRegs with macAcc := 0x28D31B7CAFF946C77C8844335369D03A7#130 }
    t.tag = #v[0xC11D06A8, 0xC6365130, 0xAF8B2BC2, 0xA927010C] ∧ t.macActive = false ∧ t.macAcc = 0#130
      ∧ t.macR = 0#128 := by decide

/-- V-MAC15. -/
theorem test_macFinal_no_session :
    (after .macFinal macRegs).errcode = .macState ∧ (after .macFinal macRegs).tag = State.reset.tag := by decide

/-- V-MAC1. -/
theorem test_mac :
    (after .mac { macRegs with len := 34 }).tag = #v[0xC11D06A8, 0xC6365130, 0xAF8B2BC2, 0xA927010C] := by decide

/-- V-MAC3: two blocks of 0xFF with multiplier 1 wrap past the prime. -/
theorem test_mac_wraps :
    (after .mac { State.reset with
      mackey := #v[1, 0, 0, 0, 0, 0, 0, 0], len := 32, mem := bufferOf [(0, List.replicate 32 0xFF)] }).tag
      = #v[3, 0, 0, 0] := by decide

/-- V-OTK1. -/
theorem test_keygen :
    (after .keygen { State.reset with key := k80, nonce := #v[0, 0x03020100, 0x07060504], counter := 5 }).mackey
      = #v[0x8BA0D58A, 0xCC815F90, 0x27405081, 0x7194B24A, 0x37B633A8, 0xA50DFDE3, 0xE2B8DB08, 0x46A6D1FD] := by decide

/-- V-AEAD5. -/
theorem test_seal :
    let t := after .aeadSeal sealRegs
    readBytes t.mem 0x80 3 = .ok [0xFE, 0x19, 0x8A]
      ∧ t.tag = #v[0x2F8A8DA0, 0x16AB46AB, 0x0C569EC7, 0xF478CA34] := by decide

/-- V-AEAD13: in place is legal, but `DST` meets `AAD`. -/
theorem test_seal_overlap :
    (after .aeadSeal { sealRegs with dst := 0, len := 16, aad := 0, aadlen := 4 }).errcode = .overlap := by decide

/-- V-AEAD7. -/
theorem test_open :
    let t := after .aeadOpen openRegs
    readBytes t.mem 0xC0 3 = .ok [0x61, 0x62, 0x63] ∧ errcodeWord t = 0 ∧ statusWord t = 2 := by decide

/-- V-AEAD8: one bit of the tag flipped. -/
theorem test_open_wrong_tag :
    let t := after .aeadOpen { openRegs with tag := #v[0x2F8A8DA1, 0x16AB46AB, 0x0C569EC7, 0xF478CA34] }
    errcodeWord t = 8 ∧ statusWord t = 0x0E ∧ readByte t.mem 0xC0 = none ∧ t.tag[0] = 0x2F8A8DA1 := by decide

/-! ### Host accesses, one step each -/

/-- The data of a read that the bus answers without an error. -/
def dataAt (s : State) (off : Nat) (w : Width) : Option Word :=
  match busRead s off w with
  | .ok r => if r.error then none else r.data
  | .error _ => none

/-- V-HOST1 to V-HOST3. -/
theorem test_bus_errors :
    busRead State.reset 0x008 .w1 = .ok { error := true, data := some 0 }
      ∧ busWrite State.reset 0x1001 .w2 5 = (State.reset, { error := true, data := none })
      ∧ busRead State.reset 0x2000 .w4 = .ok { error := true, data := some 0 } := by decide

/-- V-HOST4, V-HOST5. -/
theorem test_reads_zero :
    dataAt State.reset 0x038 .w4 = some 0 ∧ dataAt blockRegs 0x040 .w4 = some 0
      ∧ busWrite State.reset 0x038 .w4 7 = (State.reset, { error := false, data := none }) := by decide

/-- V-HOST6. -/
theorem test_little_endian :
    let s := { State.reset with mem := bufferOf [(0, [0x61, 0x62, 0x63, 0x64])] }
    busWrite State.reset 0x1000 .w4 0x64636261 = (s, { error := false, data := none })
      ∧ dataAt s 0x1000 .w1 = some 0x61 ∧ dataAt s 0x1002 .w2 = some 0x6463 := by decide

/-- V-HOST7: the write before the completion, and after it. -/
theorem test_write_while_busy :
    let before := (busWrite (accept 5 State.reset) 0x014 .w4 5).1
    let later := (busWrite (stateOf (completion (accept 5 State.reset))) 0x014 .w4 5).1
    (before.len, before.werr) = (0, true) ∧ (later.len, later.werr) = (5, false) := by decide

/-- V-HOST8, V-HOST9. -/
theorem test_status_and_reset :
    let cleared := (busWrite (complete .counter State.reset) 0x008 .w4 6).1
    let reset := (busWrite sealRegs 0x004 .w4 3).1
    (statusWord cleared, errcodeWord cleared) = (0, 7)
      ∧ (reset.irqEn, reset.src, reset.dst, reset.mem) = (false, 0, 0, sealRegs.mem) := by decide

/-- V-IRQ1. -/
theorem test_irq :
    irq (after .init { State.reset with irqEn := true }) = true
      ∧ irq (busWrite (after .init { State.reset with irqEn := true }) 0x008 .w4 2).1 = false := by
  decide

/-- The very next step after `withFetchWord` runs the word: BLOCK (V-BLK2), and no command (V-DEC1). -/
theorem test_withFetchWord :
    (stateOf (step (State.reset.withFetchWord 32 5))).state[0] = 0xADE0B876
      ∧ statusWord (stateOf (step (State.reset.withFetchWord 32 0))) = 6 := by decide

/-- P6, statement 3: `run QROUND 0, 0, 1, 2` as bus accesses. -/
theorem test_program :
    programInputs [.run (.qround 0 0 1 2)] = [.access (.write 0x00C .w4 0x00210002), .waitIdle 0] := by decide

/-- V-HOST7: `cmd BLOCK` then `wr LEN, 5` has a run with the completion between the two and one without. -/
theorem test_program_runs :
    let p := [Stmt.cmd .block, .wr .len 5]
    let cmd := Input.access (.write 0x00C .w4 5)
    let len := Input.access (.write 0x014 .w4 5)
    isRunOf p [cmd, .sequencer, len] = true ∧ isRunOf p [cmd, len] = true ∧ isRunOf p [len, cmd] = false := by decide

/-- R73: `run INIT` has runs with any number of reads of `STATUS` that find `BUSY` 1, and with the completion before the
`wait`. -/
theorem test_wait_polls :
    let cmd := Input.access (.write 0x00C .w4 1)
    isRunOf [.run .init] [cmd, .waitIdle 2] = true ∧ isRunOf [.run .init] [cmd, .sequencer, .waitIdle 0] = true
      ∧ isRunOf [.run .init] [cmd] = false
      ∧ (let polled := stateOf (step { pending 1 with inputs := [.waitIdle 1] })
         polled.inputs = [.waitIdle 0] ∧ polled.busy = true
           ∧ polled.responses = [{ error := false, data := some 0x00000001 }])
      ∧ (let ended := stateOf (step { after .init (pending 1) with inputs := [.waitIdle 1] })
         ended.inputs = [] ∧ ended.responses = [{ error := false, data := some 0x00000002 }]) := by decide

/-- R134: the abort of a SEAL whose associated data nothing has written resets the registers all the same. -/
theorem test_abort_with_unwritten_operand :
    let t := (busWrite (accept 0x0C { sealRegs with aad := 0x50 }) 0x004 .w4 2).1
    (t.busy, t.src, t.len, t.key, t.cmdWord) = (false, 0, 0, State.reset.key, 0) := by decide

/-! ### Witnesses: for each statement with hypotheses, states and operands that meet them all, each clause at a boundary -/

theorem next_after {i : Instr} {s : State} (h : goesOn (exec i s) = true) : exec i s = .next (after i s) :=
  next_of_goesOn h

theorem witness_DecodedWordIsTheEncoding : decode 0x00D87202#32 = .ok (.qround 2 7 8 13) := by decide

/-- Clause by clause: opcodes 0x00, 0x0E and 0xFF; the lowest reserved bit of QROUND and of OPEN; the greatest QROUND word. -/
theorem witness_EveryWordIsACommandOrNamedError :
    (∀ w : Word, w = 0x00#32 ∨ w = 0x0E#32 ∨ w = 0xFF#32 →
        (pending w).cmdWord.toNat % 256 = 0 ∨ 14 ≤ (pending w).cmdWord.toNat % 256)
      ∧ (let op := (pending 0x01000002).cmdWord.toNat % 256
         1 ≤ op ∧ op ≤ 13 ∧ (if op = 2 then 2 ^ 24 else 2 ^ 8) ≤ (pending 0x01000002).cmdWord.toNat)
      ∧ (let op := (pending 0x0000010D).cmdWord.toNat % 256
         1 ≤ op ∧ op ≤ 13 ∧ (if op = 2 then 2 ^ 24 else 2 ^ 8) ≤ (pending 0x0000010D).cmdWord.toNat)
      ∧ (let op := (pending 0x00FFFF02).cmdWord.toNat % 256
         1 ≤ op ∧ op ≤ 13 ∧ (pending 0x00FFFF02).cmdWord.toNat < (if op = 2 then 2 ^ 24 else 2 ^ 8)) := by
  refine ⟨?_, by decide, by decide, by decide⟩
  rintro w (rfl | rfl | rfl) <;> decide

theorem witness_StepRunsTheDecodedCommand :
    (pending 5).busy = true ∧ decode (pending 5).cmdWord = .ok .block ∧ (pending 5).inputs = []
      ∧ { pending 5 with inputs := [.sequencer] }.inputs = .sequencer :: []
      ∧ { pending 5 with inputs := [.waitIdle 0] }.inputs = .waitIdle 0 :: [] := by decide

theorem witness_CmdWriteIsAcceptanceWhileIdle : State.reset.busy = false ∧ (pending 5).busy = true := by decide

theorem witness_EveryAcceptedCommandCompletes : (pending 0).busy = true := by decide

/-- A completion, a soft reset and a power-on reset. -/
theorem witness_BusyFallsOnlyByCompletionOrReset :
    ∀ s : State, s = pending 1 ∨ s = { pending 1 with inputs := [.access (.write 4 .w4 2)] }
        ∨ s = { pending 1 with inputs := [.powerOnReset] } →
      step s = .next (stateOf (step s)) ∧ s.busy = true ∧ (stateOf (step s)).busy = false := by
  rintro s (rfl | rfl | rfl) <;> exact ⟨next_of_goesOn (by decide), by decide, by decide⟩

theorem witness_CompletionWritesStatusAndErrcode : exec .init blockRegs = .next (after .init blockRegs) :=
  next_after (by decide)

/-- An error of a word that is no command, and of a command. -/
theorem witness_ErrorCompletionIsPrecise :
    (completion (pending 0) = .next (stateOf (completion (pending 0)))
        ∧ (stateOf (completion (pending 0))).errcode ≠ .none)
      ∧ exec .macFinal State.reset = .next (after .macFinal State.reset)
      ∧ (after .macFinal State.reset).errcode ≠ .none :=
  ⟨⟨next_of_goesOn (by decide), by decide⟩, next_after (by decide), by decide⟩

/-- One command for each code: `E_ALIAS`, `E_MAC_STATE`, `E_RANGE`, `E_OVERLAP`, `E_COUNTER` (V-XOR7) and `E_AUTH`. -/
theorem witness_EachCommandRaisesOnlyItsErrors :
    ∀ x ∈ [(Instr.qround 0 0 1 2, State.reset, ErrCode.aliased), (.macUpdate, State.reset, .macState),
           (.mac, { State.reset with src := 0xFFF, len := 2 }, .range),
           (.xor, { State.reset with dst := 1, len := 2 }, .overlap),
           (.xor, { State.reset with dst := 0x100, len := 65, counter := 0xFFFFFFFF }, .counter),
           (.aeadOpen, { openRegs with tag := #v[0, 0, 0, 0] }, .auth)],
      exec x.1 x.2.1 = .next (after x.1 x.2.1) ∧ (after x.1 x.2.1).errcode = x.2.2 ∧ x.2.2 ≠ .none := by
  have h : ∀ x ∈ [(Instr.qround 0 0 1 2, State.reset, ErrCode.aliased), (.macUpdate, State.reset, .macState),
           (.mac, { State.reset with src := 0xFFF, len := 2 }, .range),
           (.xor, { State.reset with dst := 1, len := 2 }, .overlap),
           (.xor, { State.reset with dst := 0x100, len := 65, counter := 0xFFFFFFFF }, .counter),
           (.aeadOpen, { openRegs with tag := #v[0, 0, 0, 0] }, .auth)],
      goesOn (exec x.1 x.2.1) = true ∧ (after x.1 x.2.1).errcode = x.2.2 ∧ x.2.2 ≠ .none := by decide
  exact fun x hx => ⟨next_after (h x hx).1, (h x hx).2⟩

theorem witness_FrameOfStateCommands :
    (∀ i ∈ [Instr.init, .dround, .permute, .block, .qround 0 4 8 12], exec i blockRegs = .next (after i blockRegs))
      ∧ (3 : Fin 16) ≠ 0 ∧ (3 : Fin 16) ≠ 4 ∧ (3 : Fin 16) ≠ 8 ∧ (3 : Fin 16) ≠ 12 := by
  have h : ∀ i ∈ [Instr.init, .dround, .permute, .block, .qround 0 4 8 12], goesOn (exec i blockRegs) = true := by
    decide
  exact ⟨fun i hi => next_after (h i hi), by decide⟩

theorem witness_FrameOfMacAndKeyCommands :
    ∀ i ∈ [Instr.macInit, .macUpdate, .macFinal, .mac, .keygen],
      exec i { sessionRegs with len := 34 } = .next (after i { sessionRegs with len := 34 }) := by
  have h : ∀ i ∈ [Instr.macInit, .macUpdate, .macFinal, .mac, .keygen],
      goesOn (exec i { sessionRegs with len := 34 }) = true := by decide
  exact fun i hi => next_after (h i hi)

theorem witness_FrameOfBufferCommands :
    ∀ i ∈ [Instr.xor, .aeadSeal, .aeadOpen], exec i sealRegs = .next (after i sealRegs) := by
  have h : ∀ i ∈ [Instr.xor, .aeadSeal, .aeadOpen], goesOn (exec i sealRegs) = true := by decide
  exact fun i hi => next_after (h i hi)

theorem witness_QroundPerformsTheQuarterRound :
    (0 : Fin 16) ≠ 5 ∧ (0 : Fin 16) ≠ 10 ∧ (0 : Fin 16) ≠ 15 ∧ (5 : Fin 16) ≠ 10 ∧ (5 : Fin 16) ≠ 15
      ∧ (10 : Fin 16) ≠ 15 := by decide

/-- Each of the six ways two indices can be equal. -/
theorem witness_QroundWithEqualIndicesRaisesAlias :
    ∀ i ∈ [Instr.qround 0 0 1 15, .qround 0 1 0 15, .qround 0 1 15 0, .qround 1 0 0 15, .qround 1 0 15 0,
           .qround 1 15 0 0],
      ∃ qa qb qc qd : Fin 16, i = .qround qa qb qc qd
        ∧ (qa = qb ∨ qa = qc ∨ qa = qd ∨ qb = qc ∨ qb = qd ∨ qc = qd) := by
  simp

theorem witness_DisjointQuarterRoundsCommute : ([0, 4, 8, 12, 1, 5, 9, 13] : List (Fin 16)).Nodup := by decide

/-- V-XOR6 (the last counter, a whole block up to the end of the buffer) and V-XOR5 (nothing, whatever the addresses). -/
theorem witness_XorWritesMessageXorKeystream :
    (let s := { blockRegs with
        counter := 0xFFFFFFFF, src := 0xFC0, dst := 0xFC0, len := 64, mem := bufferOf [(0xFC0, List.replicate 64 7)] }
     inBuffer s s.src s.len ∧ inBuffer s s.dst s.len ∧ ¬ overlapsPartly s.src s.dst s.len
       ∧ counterStays s.counter.toNat s.len ∧ (List.replicate 64 (7 : Byte)).length = s.len.toNat
       ∧ holdsBytes s.mem s.src.toNat (List.replicate 64 7))
      ∧ (let s := { blockRegs with counter := 0xFFFFFFFF, src := 0xFFFFFFFF, dst := 0x5000, len := 0 }
         inBuffer s s.src s.len ∧ inBuffer s s.dst s.len ∧ ¬ overlapsPartly s.src s.dst s.len
           ∧ counterStays s.counter.toNat s.len ∧ ([] : List Byte).length = s.len.toNat
           ∧ holdsBytes s.mem s.src.toNat []) := by
  unfold inBuffer overlapsPartly counterStays holdsBytes
  decide

/-- V-XOR8, V-XOR10 and V-XOR7. -/
theorem witness_XorReportsItsFirstFailingCheck :
    (let s := { State.reset with src := 0xFFF, len := 2 }
     ¬ (inBuffer s s.src s.len ∧ inBuffer s s.dst s.len))
      ∧ (let s := { State.reset with dst := 1, len := 2 }
         inBuffer s s.src s.len ∧ inBuffer s s.dst s.len ∧ overlapsPartly s.src s.dst s.len)
      ∧ (let s := { State.reset with dst := 0x100, len := 65, counter := 0xFFFFFFFF }
         inBuffer s s.src s.len ∧ inBuffer s s.dst s.len ∧ ¬ overlapsPartly s.src s.dst s.len
           ∧ ¬ counterStays s.counter.toNat s.len) := by
  unfold inBuffer overlapsPartly counterStays
  decide

/-- In place, where input and output are the same bytes. -/
theorem witness_XorEqualsFrontToBackStreaming :
    let s := { sealRegs with dst := 0 }
    exec .xor s = .next (after .xor s) ∧ (after .xor s).errcode = .none :=
  ⟨next_after (by decide), by decide⟩

/-- A whole block before more, and a last block of one byte. -/
theorem witness_AbsorbStepsBlockByBlock :
    (let b : List Byte := List.replicate 16 1
     1 ≤ b.length ∧ b.length ≤ 16 ∧ (b.length = 16 ∨ [(2 : Byte)] = []))
      ∧ (let b : List Byte := [1]
         1 ≤ b.length ∧ b.length ≤ 16 ∧ (b.length = 16 ∨ ([] : List Byte) = [])) := by decide

theorem witness_AbsorbInPartsIsAbsorbWhole : (List.replicate 32 (1 : Byte)).length % 16 = 0 := by decide

/-- The buffer's first bytes in an open session, and the empty message. -/
theorem witness_MacUpdateAbsorbsItsMessage :
    (let s := { sessionRegs with len := 2 }
     s.macActive = true ∧ inBuffer s s.src s.len ∧ [(0x43 : Byte), 0x72].length = s.len.toNat
       ∧ holdsBytes s.mem s.src.toNat [0x43, 0x72])
      ∧ sessionRegs.macActive = true ∧ inBuffer sessionRegs sessionRegs.src sessionRegs.len
      ∧ ([] : List Byte).length = sessionRegs.len.toNat ∧ holdsBytes sessionRegs.mem sessionRegs.src.toNat [] := by
  unfold inBuffer holdsBytes
  decide

/-- V-MAC15 and V-MAC17. -/
theorem witness_MacCommandsReportTheirFirstFailingCheck :
    State.reset.macActive = false
      ∧ (let s := { sessionRegs with src := 0xFFF, len := 2 }
         s.macActive = true ∧ ¬ inBuffer s s.src s.len) := by
  unfold inBuffer
  decide

theorem witness_MacFinalWritesTagAndClosesSession : sessionRegs.macActive = true := by decide

theorem witness_MacEqualsInitUpdateFinal :
    let s := { macRegs with src := 32, len := 2 }
    inBuffer s s.src s.len ∧ [(0x75 : Byte), 0x70].length = s.len.toNat ∧ holdsBytes s.mem s.src.toNat [0x75, 0x70] := by
  unfold inBuffer holdsBytes
  decide

theorem witness_CtEqualIsEquality :
    (List.replicate 16 (1 : Byte)).length = 16 ∧ (List.replicate 16 (2 : Byte)).length = 16 := by decide

/-- V-AEAD5: message, associated data and ciphertext. -/
theorem witness_SealWritesCiphertextAndTag :
    aeadInBuffer sealRegs ∧ ¬ aeadOverlaps sealRegs
      ∧ [(0x61 : Byte), 0x62, 0x63].length = sealRegs.len.toNat
      ∧ holdsBytes sealRegs.mem sealRegs.src.toNat [0x61, 0x62, 0x63]
      ∧ [(0x78 : Byte)].length = sealRegs.aadlen.toNat ∧ holdsBytes sealRegs.mem sealRegs.aad.toNat [0x78]
      ∧ isStreamOf sealRegs.key sealRegs.nonce 1 [0x61, 0x62, 0x63] [0xFE, 0x19, 0x8A] := by
  unfold aeadInBuffer aeadOverlaps inBuffer overlapsPartly rangesMeet holdsBytes isStreamOf
  decide

/-- V-AEAD7. -/
theorem witness_OpenWithMatchingTagWritesPlaintext :
    aeadInBuffer openRegs ∧ ¬ aeadOverlaps openRegs
      ∧ [(0xFE : Byte), 0x19, 0x8A].length = openRegs.len.toNat
      ∧ holdsBytes openRegs.mem openRegs.src.toNat [0xFE, 0x19, 0x8A]
      ∧ [(0x78 : Byte)].length = openRegs.aadlen.toNat ∧ holdsBytes openRegs.mem openRegs.aad.toNat [0x78]
      ∧ isStreamOf openRegs.key openRegs.nonce 1 [0xFE, 0x19, 0x8A] [0x61, 0x62, 0x63]
      ∧ tagBytes openRegs = poly (frame [0x78] [0xFE, 0x19, 0x8A]) (oneTimeKey openRegs.key openRegs.nonce) := by
  unfold aeadInBuffer aeadOverlaps inBuffer overlapsPartly rangesMeet holdsBytes isStreamOf
  decide

/-- V-AEAD8. -/
theorem witness_OpenWithWrongTagFailsClosed :
    let s := { openRegs with tag := #v[0x2F8A8DA1, 0x16AB46AB, 0x0C569EC7, 0xF478CA34] }
    aeadInBuffer s ∧ ¬ aeadOverlaps s ∧ [(0xFE : Byte), 0x19, 0x8A].length = s.len.toNat
      ∧ holdsBytes s.mem s.src.toNat [0xFE, 0x19, 0x8A] ∧ [(0x78 : Byte)].length = s.aadlen.toNat
      ∧ holdsBytes s.mem s.aad.toNat [0x78]
      ∧ tagBytes s ≠ poly (frame [0x78] [0xFE, 0x19, 0x8A]) (oneTimeKey s.key s.nonce) := by
  unfold aeadInBuffer aeadOverlaps inBuffer overlapsPartly rangesMeet holdsBytes
  decide

/-- Each of the three ranges one byte beyond the buffer, and V-AEAD12 and a partly overlapping output. -/
theorem witness_SealAndOpenReportTheirFirstFailingCheck :
    (¬ aeadInBuffer { sealRegs with src := 0xFFE } ∧ ¬ aeadInBuffer { sealRegs with dst := 0xFFE }
        ∧ ¬ aeadInBuffer { sealRegs with aad := 0x1000 })
      ∧ (let s := { sealRegs with dst := 0x40, len := 16, aad := 0x48, aadlen := 4 }
         aeadInBuffer s ∧ aeadOverlaps s)
      ∧ (let s := { sealRegs with dst := 2 }
         aeadInBuffer s ∧ aeadOverlaps s) := by
  unfold aeadInBuffer aeadOverlaps inBuffer overlapsPartly rangesMeet
  decide

/-- V-AEAD5, then V-AEAD7. -/
theorem witness_OpenAfterSealRestoresThePlaintext :
    let t := after .aeadSeal sealRegs
    let u : State := { t with src := sealRegs.dst, dst := 0xC0 }
    exec .aeadSeal sealRegs = .next t ∧ t.errcode = .none
      ∧ [(0x61 : Byte), 0x62, 0x63].length = sealRegs.len.toNat
      ∧ holdsBytes sealRegs.mem sealRegs.src.toNat [0x61, 0x62, 0x63]
      ∧ [(0x78 : Byte)].length = sealRegs.aadlen.toNat ∧ holdsBytes sealRegs.mem sealRegs.aad.toNat [0x78]
      ∧ aeadInBuffer u ∧ ¬ aeadOverlaps u := by
  refine ⟨next_after (by decide), by decide, ?_⟩
  unfold aeadInBuffer aeadOverlaps inBuffer overlapsPartly rangesMeet holdsBytes
  decide

/-- The second of three message bytes unwritten; the associated data unwritten; the last byte of a halfword read. -/
theorem witness_ReadingAnUnwrittenByteFaults :
    (let s := { sessionRegs with src := 33, len := 3, dst := 0x80 }
     firstUnwritten s.mem s.src.toNat s.len.toNat 1 ∧ s.macActive = true ∧ inBuffer s s.src s.len
       ∧ inBuffer s s.dst s.len ∧ ¬ overlapsPartly s.src s.dst s.len ∧ counterStays s.counter.toNat s.len
       ∧ aeadInBuffer s ∧ ¬ aeadOverlaps s)
      ∧ (let s := { sealRegs with aad := 0x50 }
         [(0x61 : Byte), 0x62, 0x63].length = s.len.toNat ∧ holdsBytes s.mem s.src.toNat [0x61, 0x62, 0x63]
           ∧ firstUnwritten s.mem s.aad.toNat s.aadlen.toNat 0 ∧ aeadInBuffer s ∧ ¬ aeadOverlaps s)
      ∧ (let s := { State.reset with mem := bufferOf [(0xFFE, [1])] }
         s.busy = false ∧ 0x1000 ≤ 0x1FFE ∧ 0x1FFE < 0x1000 + s.cfg.bufBytes ∧ 0x1FFE % widthBytes .w2 = 0
           ∧ firstUnwritten s.mem (0x1FFE - 0x1000) (widthBytes .w2) 1) := by
  unfold aeadInBuffer aeadOverlaps inBuffer overlapsPartly rangesMeet holdsBytes firstUnwritten counterStays
  decide

/-- The first and the last place of each width. -/
theorem witness_BufferWriteIsLittleEndianAndReadsBack :
    ∀ x ∈ [(0x1000, Width.w1), (0x1FFF, .w1), (0x1000, .w2), (0x1FFE, .w2), (0x1000, .w4), (0x1FFC, .w4)],
      State.reset.busy = false ∧ 0x1000 ≤ x.1 ∧ x.1 < 0x1000 + State.reset.cfg.bufBytes
        ∧ x.1 % widthBytes x.2 = 0 := by decide

/-- A narrow and a misaligned register access, misaligned buffer accesses, and the first offset beyond the window. -/
theorem witness_IllegalAccessIsABusErrorWithoutEffect :
    ∀ x ∈ [(0x008, Width.w1), (0x008, .w2), (0x006, .w4), (0x1001, .w2), (0x1002, .w4), (0x2000, .w1), (0x2000, .w4)],
      ¬ ((x.1 < 0x1000 ∧ x.2 = .w4 ∧ x.1 % 4 = 0)
        ∨ (0x1000 ≤ x.1 ∧ x.1 < 0x1000 + State.reset.cfg.bufBytes ∧ x.1 % widthBytes x.2 = 0)) := by decide

theorem witness_ReadWriteRegistersReadBack :
    State.reset.busy = false
      ∧ ∀ off ∈ [0x014, 0x034, 0x060, 0x0CC],
          off % 4 = 0 ∧ ((0x014 ≤ off ∧ off ≤ 0x034) ∨ (0x060 ≤ off ∧ off ≤ 0x0CC)) := by decide

theorem witness_ReservedOffsetsReadZeroIgnoreWrites :
    (∀ off ∈ [0x038, 0x03C, 0x0E4, 0xFFC], off % 4 = 0 ∧ (off = 0x038 ∨ off = 0x03C ∨ (0x0E4 ≤ off ∧ off ≤ 0xFFC)))
      ∧ ∀ off ∈ [0x000, 0x010, 0x0D0, 0x0E0], off % 4 = 0 ∧ (off = 0x000 ∨ off = 0x010 ∨ (0x0D0 ≤ off ∧ off ≤ 0x0E0)) := by
  decide

theorem witness_StatusIsWriteOneToClear : State.reset.busy = false := by decide

theorem witness_PowerOnResetValues :
    let s := { pending 6 with inputs := [.powerOnReset] }
    s.cfg = Config.standard ∧ s.inputs = .powerOnReset :: [] := by decide

/-- The boundary offsets of each clause. -/
theorem witness_WriteWhileBusyIsDroppedAndSetsWerr :
    (pending 5).busy = true
      ∧ (∀ off ∈ [0x00C, 0x014, 0x034, 0x040, 0x0CC],
          off % 4 = 0 ∧ (off = 0x00C ∨ (0x014 ≤ off ∧ off ≤ 0x034) ∨ (0x040 ≤ off ∧ off ≤ 0x0CC)))
      ∧ (∀ x ∈ [(0x1000, Width.w1), (0x1FFF, .w1), (0x1FFE, .w2), (0x1FFC, .w4)],
          0x1000 ≤ x.1 ∧ x.1 < 0x1000 + (pending 5).cfg.bufBytes ∧ x.1 % widthBytes x.2 = 0)
      ∧ (∀ off ∈ [0x000, 0x010, 0x038, 0x03C, 0x0D0, 0xFFC],
          off % 4 = 0 ∧ (off = 0x000 ∨ off = 0x010 ∨ off = 0x038 ∨ off = 0x03C ∨ (0x0D0 ≤ off ∧ off ≤ 0xFFC)))
      ∧ (0xFFFFFFFD#32).getLsbD 1 = false := by decide

theorem witness_OutputsReadZeroWhileBusy :
    (pending 5).busy = true
      ∧ (∀ off ∈ [0x060, 0x0E0], off % 4 = 0 ∧ 0x060 ≤ off ∧ off ≤ 0x0E0)
      ∧ (∀ x ∈ [(0x1000, Width.w1), (0x1FFE, .w2), (0x1FFC, .w4)],
          0x1000 ≤ x.1 ∧ x.1 < 0x1000 + (pending 5).cfg.bufBytes ∧ x.1 % widthBytes x.2 = 0)
      ∧ regOffset .id < 0x060 ∧ regOffset (.key 7) < 0x060 := by decide

theorem witness_CtrlWriteSetsInterruptEnable : (0x1#32).getLsbD 1 = false ∧ (0xFFFFFFFC#32).getLsbD 1 = false := by decide

theorem witness_HostReadHasNoSideEffect :
    (let s := { State.reset with inputs := [.access (.read 0x000 .w4)] }
     s.inputs = .access (.read 0x000 .w4) :: [] ∧ step s = .next (stateOf (step s)))
      ∧ (let s := { pending 1 with inputs := [.waitIdle 1] }
         s.busy = true ∧ s.inputs = .waitIdle (0 + 1) :: [])
      ∧ (let s := { State.reset with inputs := [.waitIdle 0] }
         s.busy = false ∧ s.inputs = .waitIdle 0 :: []) :=
  ⟨⟨rfl, next_of_goesOn (by decide)⟩, ⟨rfl, rfl⟩, rfl, rfl⟩

theorem witness_SoftResetWhileIdleKeepsTheBuffer : sealRegs.busy = false ∧ (0x3#32).getLsbD 1 = true := by decide

/-- The abort of an XOR that would write three bytes. -/
theorem witness_AbortLeavesEachByteOldOrNew :
    (accept 6 sealRegs).busy = true ∧ (0x2#32).getLsbD 1 = true
      ∧ exec .xor (accept 6 sealRegs) = .next (after .xor (accept 6 sealRegs)) :=
  ⟨rfl, by decide, next_after (by decide)⟩

theorem witness_StepKeepsTheInvariant :
    (accept 6 sealRegs).Inv ∧ step (accept 6 sealRegs) = .next (stateOf (step (accept 6 sealRegs))) := by
  refine ⟨?_, next_of_goesOn (by decide)⟩
  unfold State.Inv
  decide

/-- `WERR` kept by a command, cleared by the host, by a soft reset and by a power-on reset. -/
theorem witness_WerrIsSticky :
    ∀ i ∈ [[], [Input.access (.write 0x008 .w4 0x10)], [.access (.write 0x004 .w4 2)], [.powerOnReset]],
      let s := { pending 1 with werr := true, inputs := i }
      step s = .next (stateOf (step s)) ∧ s.werr = true := by
  have h : ∀ i ∈ [[], [Input.access (.write 0x008 .w4 0x10)], [.access (.write 0x004 .w4 2)], [.powerOnReset]],
      goesOn (step { pending 1 with werr := true, inputs := i }) = true := by decide
  exact fun i hi => ⟨next_of_goesOn (h i hi), rfl⟩

/-- A write to `KEY7`, a soft reset and a power-on reset. -/
theorem witness_OnlyHostAndResetsWriteTheKey :
    ∀ i ∈ [Input.access (.write 0x05C .w4 1), .access (.write 0x004 .w4 2), .powerOnReset],
      let s := { blockRegs with inputs := [i] }
      step s = .next (stateOf (step s)) ∧ (stateOf (step s)).key ≠ s.key := by
  have h : ∀ i ∈ [Input.access (.write 0x05C .w4 1), .access (.write 0x004 .w4 2), .powerOnReset],
      goesOn (step { blockRegs with inputs := [i] }) = true
        ∧ (stateOf (step { blockRegs with inputs := [i] })).key ≠ k00 := by decide
  exact fun i hi => ⟨next_of_goesOn (h i hi).1, (h i hi).2⟩

theorem witness_LatencyIgnoresSecretData :
    ∀ i ∈ [Instr.init, .dround, .permute, .block, .keygen, .macInit, .qround 0 0 1 2],
      let s := accept (encode i) State.reset
      let t := accept (encode i) { blockRegs with mem := sealRegs.mem }
      decode s.cmdWord = .ok i ∧ t.cmdWord = s.cmdWord ∧ t.len = s.len ∧ t.aadlen = s.aadlen := by decide

end Sys2Proof.Tests
end

/-! ## The invariant, the fall of `BUSY`, and the tag comparison -/

namespace Sys2Proof.Machine

/-! ### A buffer memory that fits in the buffer (R44) -/

/-- The invariant's two clauses about the buffer memory: canonical form, and every address below the buffer's size. -/
def Memory.FitsIn (m : Memory) (size : Nat) : Prop := m.wf ∧ ∀ c ∈ m, c.1 < size

theorem fitsIn_nil (size : Nat) : Memory.FitsIn [] size := ⟨List.Pairwise.nil, by simp⟩

/-- A write that lists only addresses of its range `[a, a + n)`, which lies inside the buffer, leaves a memory that fits. -/
theorem fitsIn_of_range {m m' : Memory} {size a n : Nat} (h : m.FitsIn size) (hr : n = 0 ∨ a + n ≤ size) (hwf : m'.wf)
    (haddr : ∀ c ∈ m', (a ≤ c.1 ∧ c.1 < a + n) ∨ c ∈ m) : m'.FitsIn size := by
  refine ⟨hwf, fun c hc => ?_⟩
  rcases haddr c hc with hin | hold
  · omega
  · exact h.2 c hold

theorem fitsIn_writeBytes {m : Memory} {size a : Nat} {bs : List Byte} (h : m.FitsIn size)
    (hr : bs.length = 0 ∨ a + bs.length ≤ size) : (writeBytes m a bs).FitsIn size :=
  fitsIn_of_range h hr (wf_writeBytes h.1 a bs) fun _ => addr_of_mem_writeBytes

theorem fitsIn_mixBytes {m : Memory} {size tick a : Nat} {bs : List Byte} (h : m.FitsIn size)
    (hr : bs.length = 0 ∨ a + bs.length ≤ size) : (mixBytes tick m a bs).FitsIn size :=
  fitsIn_of_range h hr (wf_mixBytes h.1 tick a bs) fun _ => addr_of_mem_mixBytes

/-- What a command writes to its output range lies inside the buffer. -/
theorem bufferOutput_fits {i : Instr} {s : State} {out : List Byte} (h : bufferOutput i s = .ok out) :
    out.length = 0 ∨ s.dst.toNat + out.length ≤ s.cfg.bufBytes := by
  rcases bufferOutput_ok h with rfl | ⟨hlen, hin⟩
  · exact .inl rfl
  · rw [hlen]
    exact hin

/-- A naturally aligned access that starts in the buffer ends in it: its width divides the buffer's size (R6, R48). -/
theorem alignedAccess_fits {c : Config} {off : Nat} {w : Width} (hc : c.ok = true)
    (hlo : 0x1000 ≤ off) (hhi : off < 0x1000 + c.bufBytes) (hal : off % widthBytes w = 0) :
    off - 0x1000 + widthBytes w ≤ c.bufBytes := by
  have hsize : c.bufBytes % 64 = 0 := by
    simp only [Config.ok, Bool.and_eq_true, beq_iff_eq] at hc
    exact hc.1.1
  cases w <;> simp only [widthBytes] at hal ⊢ <;> omega

/-! ### The invariant: what it says of the memory and of a state after reset -/

theorem State.Inv.cfg_ok {s : State} (h : s.Inv) : s.cfg.ok = true := h.1

theorem State.Inv.mem_fitsIn {s : State} (h : s.Inv) : s.mem.FitsIn s.cfg.bufBytes := ⟨h.2.1, h.2.2.1⟩

/-- Another memory that fits may stand in the buffer. -/
theorem inv_setMem {s : State} {m : Memory} (h : s.Inv) (hm : m.FitsIn s.cfg.bufBytes) :
    { s with mem := m }.Inv := by
  obtain ⟨hcfg, _, _, hrest⟩ := h
  exact ⟨hcfg, hm.1, hm.2, hrest⟩

/-- The invariant says nothing of the registers a command writes its result to. -/
theorem inv_setResults {s : State} (h : s.Inv) (state : Vector Word 16) (mackey : Vector Word 8) (tag : Vector Word 4) :
    { s with state := state, mackey := mackey, tag := tag }.Inv := h

/-- The invariant says nothing of the inputs and the host's record of answers. -/
theorem inv_setLists {s : State} (h : s.Inv) (inputs : List Input) (responses : List BusResponse) :
    { s with inputs := inputs, responses := responses }.Inv := h

theorem inv_powerOn {c : Config} (hc : c.ok = true) : (State.powerOn c).Inv := by
  refine ⟨hc, List.Pairwise.nil, ?_⟩
  simp

/-- The invariant does not see the model's own lists, so a reset meets it as a power-on does. -/
theorem inv_resetRegisters {s : State} {m : Memory} (h : s.Inv) (hm : m.FitsIn s.cfg.bufBytes) :
    (resetRegisters m s).Inv :=
  inv_setMem (inv_powerOn h.cfg_ok) (m := m) hm

theorem inv_powerOnReset {s : State} (h : s.Inv) : (powerOnReset s).Inv :=
  inv_resetRegisters h (fitsIn_nil _)

theorem inv_softReset {s : State} (h : s.Inv) : (softReset s).Inv := by
  obtain ⟨m, hreset, hm⟩ := softReset_cases s
  rw [hreset]
  apply inv_resetRegisters h
  rcases hm with rfl | ⟨_, i, out, _, hout, rfl⟩
  · exact h.mem_fitsIn
  · exact fitsIn_mixBytes h.mem_fitsIn (bufferOutput_fits (s := operandsFilled s) hout)

/-! ### The invariant through a completion -/

theorem inv_complete {s : State} (h : s.Inv) (e : ErrCode) : (complete e s).Inv := by
  obtain ⟨hcfg, hwf, hfit, hacc, hclamp, hclosed, _, _, _, _⟩ := h
  exact ⟨hcfg, hwf, hfit, hacc, hclamp, hclosed, fun _ => rfl, by simp, by simp, by simp⟩

theorem inv_storeOutput {i : Instr} {s : State} {out : List Byte} (h : s.Inv)
    (hout : bufferOutput i s = .ok out) : (storeOutput s out).Inv :=
  inv_setMem h (fitsIn_writeBytes h.mem_fitsIn (bufferOutput_fits hout))

/-- A command's rule keeps the invariant. Only the buffer and the MAC session need an argument; every other command
writes registers of which the invariant says nothing. -/
theorem inv_commandEffect {i : Instr} {s u : State} (h : s.Inv) (hu : commandEffect i s u) : u.Inv := by
  cases i with
  | xor =>
    obtain ⟨out, hout, rfl⟩ := hu
    exact inv_storeOutput h (i := .xor) hout
  | aeadSeal =>
    obtain ⟨ct, tag, hseal, rfl⟩ := hu
    have hout : bufferOutput .aeadSeal s = .ok ct := by simp [bufferOutput, hseal]
    exact inv_setResults (inv_storeOutput h hout) _ _ _
  | aeadOpen =>
    obtain ⟨pt, hopen, rfl⟩ := hu
    exact inv_storeOutput h (i := .aeadOpen) hopen
  | macInit =>
    subst hu
    obtain ⟨hcfg, hwf, hfit, _, _, _, hflags⟩ := h
    exact ⟨hcfg, hwf, hfit, by simp, clamp_clamp _, by simp, hflags⟩
  | macUpdate =>
    obtain ⟨hopen, _, D, _, rfl⟩ := hu
    obtain ⟨hcfg, hwf, hfit, hacc, hclamp, _, hflags⟩ := h
    refine ⟨hcfg, hwf, hfit, ?_, hclamp, by simp [hopen], hflags⟩
    rw [absorb_toNat]
    exact absorb_lt _ (.inr hacc)
  | macFinal =>
    obtain ⟨_, rfl⟩ := hu
    obtain ⟨hcfg, hwf, hfit, _, _, _, hflags⟩ := h
    exact ⟨hcfg, hwf, hfit, by simp, clamp_zero, fun _ => ⟨rfl, rfl, rfl⟩, hflags⟩
  | qround a b c d =>
    obtain ⟨_, rfl⟩ := hu
    exact inv_setResults h _ _ _
  | mac =>
    obtain ⟨_, D, _, rfl⟩ := hu
    exact inv_setResults h _ _ _
  | init => subst hu; exact inv_setResults h _ _ _
  | dround => subst hu; exact inv_setResults h _ _ _
  | permute => subst hu; exact inv_setResults h _ _ _
  | block => subst hu; exact inv_setResults h _ _ _
  | keygen => subst hu; exact inv_setResults h _ _ _

theorem inv_completion {s t : State} (h : s.Inv) (ht : completion s = .next t) : t.Inv := by
  rcases completion_next ht with ⟨e, _, rfl⟩ | ⟨i, u, _, hu, rfl⟩
  · exact inv_complete h e
  · exact inv_complete (inv_commandEffect h hu) .none

/-! ### The invariant through a host write -/

theorem inv_accept {s : State} (h : s.Inv) (v : Word) : (accept v s).Inv := by
  obtain ⟨hcfg, hwf, hfit, hacc, hclamp, hclosed, _, _, _, _⟩ := h
  exact ⟨hcfg, hwf, hfit, hacc, hclamp, hclosed, by simp, by simp, by simp, by simp⟩

/-- A write of `STATUS` only clears bits, so no flag comes to disagree with `ERRCODE`. -/
theorem inv_writeStatus {s : State} (h : s.Inv) (v : Word) : (writeStatus v s).Inv := by
  obtain ⟨hcfg, hwf, hfit, hacc, hclamp, hclosed, hidle, hbusy, hauth, herr⟩ := h
  refine ⟨hcfg, hwf, hfit, hacc, hclamp, hclosed, hidle, fun hb => ?_, hauth, fun he => ?_⟩
  · obtain ⟨hdone, herr0, hauth0, hcode⟩ := hbusy hb
    exact ⟨by simp [hdone], by simp [herr0], hauth0, hcode⟩
  · simp only [writeStatus_err, Bool.and_eq_true] at he
    exact herr he.1

/-- A register write keeps the invariant, which says nothing of the operand registers. -/
theorem inv_writeReg {s : State} (h : s.Inv) (v : Word) (r : Reg) : (writeReg s v r).Inv := by
  cases r with
  | ctrl =>
    simp only [writeReg]
    split
    · exact inv_softReset h
    · exact h
  | status => exact inv_writeStatus h v
  | cmd => exact inv_accept h v
  | _ => exact h

theorem inv_busWrite {s t : State} {off : Nat} {w : Width} {v : Word} {r : BusResponse} (h : s.Inv)
    (ht : busWrite s off w v = (t, r)) : t.Inv := by
  rcases busWrite_cases ht with rfl | ⟨_, rfl⟩ | ⟨g, _, _, _, rfl⟩ | ⟨_, hlo, hhi, hal, rfl⟩
  · exact h
  · exact h
  · exact inv_writeReg h v g
  · have hfits : off - 0x1000 + (busBytes (widthBytes w) v).length ≤ s.cfg.bufBytes := by
      simpa [busBytes] using alignedAccess_fits h.cfg_ok hlo hhi hal
    exact inv_setMem h (fitsIn_writeBytes h.mem_fitsIn (.inr hfits))

/-! ### The obligations about the invariant -/

/-- Settles O57, by the cases of `step_next`: the completion and the host write are the two that touch what the invariant
speaks of, next to the power-on reset. -/
theorem stepKeepsTheInvariant : Obligations.StepKeepsTheInvariant := by
  intro s t h hstep
  rcases step_next hstep with ⟨_, rfl | ⟨rest, _, rfl⟩⟩ | ⟨_, s', hs', hc⟩ | ⟨rest, off, w, r, _, _, _, rfl⟩
    | ⟨rest, off, w, v, u, r, _, hw, _, rfl⟩ | ⟨rest, _, rfl⟩
  · exact h
  · exact inv_setLists h _ _
  · have hinv : s'.Inv := by
      rcases hs' with rfl | rfl
      · exact h
      · exact inv_setLists h _ _
    exact inv_completion hinv hc
  · exact inv_setLists h _ _
  · exact inv_setLists (inv_busWrite (inv_setLists h _ _) hw) _ _
  · exact inv_powerOnReset (inv_setLists h _ _)

/-- Settles O56: the default parameters are legal, and a power-on reset zeroes the rest. -/
theorem resetMeetsTheInvariant : Obligations.ResetMeetsTheInvariant :=
  inv_powerOn (c := Config.standard) (by decide)

/-! ### How `BUSY` falls -/

/-- Whatever completes, it completes through `complete`, which sets `DONE`. -/
theorem completion_done {s t : State} (h : completion s = .next t) : t.done = true := by
  rcases completion_next h with ⟨e, _, rfl⟩ | ⟨i, u, _, _, rfl⟩
  · rfl
  · rfl

/-- The one register write that ends a pending command is that of `CTRL` with `SRESET` (R134). -/
theorem sreset_of_writeReg_not_busy {s : State} {v : Word} {r : Reg} (hb : s.busy = true)
    (h : (writeReg s v r).busy = false) : r = .ctrl ∧ v.getLsbD 1 = true := by
  cases r with
  | ctrl =>
    simp only [writeReg] at h
    split at h
    · exact ⟨rfl, by assumption⟩
    · simp [hb] at h
  | cmd => simp [writeReg] at h
  | _ => simp [writeReg, hb] at h

theorem sreset_of_busWrite_not_busy {s t : State} {off : Nat} {w : Width} {v : Word} {r : BusResponse}
    (hw : busWrite s off w v = (t, r)) (hb : s.busy = true) (ht : t.busy = false) :
    off = 0x004 ∧ w = .w4 ∧ v.getLsbD 1 = true := by
  rcases busWrite_cases hw with rfl | ⟨_, rfl⟩ | ⟨g, hoff, hwidth, _, rfl⟩ | ⟨hidle, _⟩
  · simp [hb] at ht
  · simp [hb] at ht
  · obtain ⟨rfl, hv⟩ := sreset_of_writeReg_not_busy hb ht
    exact ⟨hoff, hwidth, hv⟩
  · simp [hb] at hidle

/-- Settles O8, by the cases of `step_next`: a read and an idle turn leave `BUSY` alone, and a write that clears it is the
soft reset. -/
theorem busyFallsOnlyByCompletionOrReset : Obligations.BusyFallsOnlyByCompletionOrReset := by
  intro s t hstep hb ht
  rcases step_next hstep with ⟨hidle, _⟩ | ⟨_, s', hs', hc⟩ | ⟨rest, off, w, r, _, _, _, rfl⟩
    | ⟨rest, off, w, v, u, r, hi, hw, _, rfl⟩ | ⟨rest, hi, _⟩
  · simp [hb] at hidle
  · exact .inl ⟨s', hs', hc, completion_done hc⟩
  · simp [hb] at ht
  · obtain ⟨rfl, rfl, hv⟩ := sreset_of_busWrite_not_busy hw hb ht
    exact .inr (.inl ⟨v, rest, hi, hv⟩)
  · exact .inr (.inr ⟨rest, hi⟩)

/-! ### The comparison of two tags (R15) -/

/-- The OR of a list of bytes, from `d` on, is 0 exactly when `d` and each byte is. -/
theorem foldl_or_eq_zero_iff (f : Nat → Byte) (l : List Nat) (d : Byte) :
    l.foldl (fun d i => d ||| f i) d = 0#8 ↔ d = 0#8 ∧ ∀ i ∈ l, f i = 0#8 := by
  induction l generalizing d with
  | nil => simp
  | cons i l ih => simp [ih, BitVec.or_eq_zero_iff, and_assoc]

/-- The comparison looks at the first 16 bytes of both strings. -/
theorem ctEqual16_iff (a b : List Byte) : ctEqual16 a b = true ↔ ∀ i < 16, a.getD i 0#8 = b.getD i 0#8 := by
  simp [ctEqual16, foldl_or_eq_zero_iff]

/-- Settles O35: 16 equal bytes are all the bytes of two strings of 16. -/
theorem ctEqualIsEquality : Obligations.CtEqualIsEquality := by
  intro a b ha hb
  rw [ctEqual16_iff]
  constructor
  · intro h
    refine List.ext_getElem (ha.trans hb.symm) fun i hia hib => ?_
    simpa [hia, hib] using h i (ha ▸ hia)
  · rintro rfl i _
    rfl

end Sys2Proof.Machine

/-! ## Register accesses, resets, and what they leave of `WERR` and `KEY` -/

namespace Sys2Proof.Machine

/-! ### The rules of an access to a register or to a reserved offset -/

/-- A write of a register that the pending command, if any, does not lock (R16, R52). -/
theorem busWrite_unlocked {s : State} {r : Reg} (h : (s.busy && lockedWhileBusy r) = false) (v : Word) :
    busWrite s (regOffset r) .w4 v = (writeReg s v r, writeResponse) := by
  simp [h]

/-- While idle no register is locked. -/
theorem busWrite_idle {s : State} (hb : s.busy = false) (r : Reg) (v : Word) :
    busWrite s (regOffset r) .w4 v = (writeReg s v r, writeResponse) :=
  busWrite_unlocked (by simp [hb]) v

/-- A read of a register that does not hide itself (R16, R53). -/
theorem busRead_visible {s : State} {r : Reg} (h : (s.busy && hiddenWhileBusy r) = false) :
    busRead s (regOffset r) .w4 = .ok (readResponse (readReg s r)) := by
  simp [h]

/-- While idle no register hides itself. -/
theorem busRead_idle {s : State} (hb : s.busy = false) (r : Reg) :
    busRead s (regOffset r) .w4 = .ok (readResponse (readReg s r)) :=
  busRead_visible (by simp [hb])

/-- Below 0x0E4 every aligned offset but the two reserved ones is a register's (R17, R39). -/
theorem exists_regOffset {off : Nat} (h4 : off % 4 = 0) (hlt : off < 0x0E4) (h38 : off ≠ 0x038) (h3C : off ≠ 0x03C) :
    ∃ r, off = regOffset r := by
  rcases hr : regAt off with _ | r
  · rw [regAt_eq_none_iff h4 (by omega)] at hr
    omega
  · exact ⟨r, (regOffset_of_regAt hr).symm⟩

section Reserved

variable {off : Nat} (hl : legalRegister off .w4 = true) (hr : regAt off = none) (s : State)
include hl hr

/-- A reserved offset reads 0 (R39). -/
theorem busRead_reserved : busRead s off .w4 = .ok (readResponse 0#32) := by
  simp only [busRead, hl, hr, if_true]

/-- A write to a reserved offset changes nothing (R39). -/
theorem busWrite_reserved (v : Word) : busWrite s off .w4 v = (s, writeResponse) := by
  simp only [busWrite, hl, hr, if_true]

end Reserved

/-- A word written to a read-write register is read back (R16), and the write leaves `BUSY` alone; the offsets say which
registers these are (R17). -/
theorem readReg_writeReg_same {r : Reg}
    (h : (0x014 ≤ regOffset r ∧ regOffset r ≤ 0x034) ∨ (0x060 ≤ regOffset r ∧ regOffset r ≤ 0x0CC))
    (s : State) (v : Word) : readReg (writeReg s v r) r = v ∧ (writeReg s v r).busy = s.busy := by
  cases r with
  | id | ctrl | status | cmd | errcode => simp [regOffset] at h
  | key i | acc i => simp only [regOffset] at h; omega
  | len | src | dst | aad | aadlen | counter => exact ⟨rfl, rfl⟩
  | nonce i | mackey i | state i | tag i => exact ⟨by simp [readReg, writeReg], rfl⟩

/-- A write of `CTRL` with `SRESET` is a soft reset, whatever its other bits (R22, R134). -/
theorem writeReg_ctrl_of_sreset (s : State) {v : Word} (hv : v.getLsbD 1 = true) : writeReg s v .ctrl = softReset s :=
  if_pos hv

/-- Without `SRESET` it sets `IRQ_EN` (R22). -/
theorem writeReg_ctrl_of_not_sreset (s : State) {v : Word} (hv : v.getLsbD 1 = false) :
    writeReg s v .ctrl = { s with irqEn := v.getLsbD 0 } :=
  if_neg (by rw [hv]; decide)

/-- Settles O45: each clause is the register's own write while idle, and the read back is `readReg_writeReg_same`. -/
theorem readWriteRegistersReadBack : Obligations.ReadWriteRegistersReadBack := by
  intro s v hb
  refine ⟨busWrite_idle hb .len v, busWrite_idle hb .src v, busWrite_idle hb .dst v, busWrite_idle hb .aad v,
    busWrite_idle hb .aadlen v, busWrite_idle hb .counter v, fun i => busWrite_idle hb (.nonce i) v,
    fun i => busWrite_idle hb (.key i) v, fun i => busWrite_idle hb (.mackey i) v,
    fun i => busWrite_idle hb (.state i) v, fun i => busWrite_idle hb (.tag i) v, fun off h4 hoff => ?_⟩
  obtain ⟨r, rfl⟩ := exists_regOffset h4 (by omega) (by omega) (by omega)
  obtain ⟨hread, hbusy⟩ := readReg_writeReg_same hoff s v
  rw [busWrite_idle hb, busRead_idle (hbusy.trans hb), hread]
  rfl

/-- Settles O46: a reserved offset is no register's, and a read-only register is one whose write changes nothing. -/
theorem reservedOffsetsReadZeroIgnoreWrites : Obligations.ReservedOffsetsReadZeroIgnoreWrites := by
  intro s off v h4
  constructor
  · intro hoff
    have hl : legalRegister off .w4 = true := (legalRegister_iff _ _).mpr ⟨by omega, rfl, h4⟩
    have hr : regAt off = none := (regAt_eq_none_iff h4 (by omega)).mpr (by omega)
    exact ⟨busRead_reserved hl hr s, busWrite_reserved hl hr s v⟩
  · rintro (rfl | rfl | hacc)
    · exact busWrite_unlocked (r := .id) (by simp [lockedWhileBusy]) v
    · exact busWrite_unlocked (r := .errcode) (by simp [lockedWhileBusy]) v
    · have hi : (off - 0x0D0) / 4 < 5 := by omega
      have hoff : off = regOffset (.acc ⟨(off - 0x0D0) / 4, hi⟩) := by simp only [regOffset]; omega
      rw [hoff]
      exact busWrite_unlocked (by simp [lockedWhileBusy]) v

/-! ### The key is not readable (R35) -/

/-- No register shows the key, not even `KEY` itself. -/
theorem readReg_setKey (s : State) (K : Vector Word 8) (r : Reg) : readReg { s with key := K } r = readReg s r := by
  cases r <;> rfl

/-- Settles O47: a read looks at the registers, at `BUSY`, at the parameters and at the buffer, and at no key. -/
theorem keyIsNeverReadable : Obligations.KeyIsNeverReadable := by
  intro s K
  refine ⟨fun i => busRead_visible (r := .key i) (by simp [hiddenWhileBusy]), fun off w => ?_⟩
  simp only [busRead, readReg_setKey]

/-! ### What `STATUS`, `CTRL` and `ACC` read -/

/-- A flag's word has the flag at its own bit and 0 at every other. -/
theorem flagBit_getElem (b : Bool) (i j : Nat) (hj : j < 32) : (flagBit b i)[j] = (b && decide (j = i)) := by
  cases b
  · simp [flagBit]
  · have hshift : (flagBit true i)[j] = true ↔ i ≤ j ∧ j - i = 0 := by simp [flagBit]
    rw [Bool.eq_iff_iff, hshift, Bool.true_and, decide_eq_true_iff]
    omega

theorem flagBit_toNat_lt {i n : Nat} (h : i < n) (b : Bool) : (flagBit b i).toNat < 2 ^ n := by
  cases b
  · simp [flagBit]
  · have hpow : 2 ^ i < 2 ^ n := Nat.pow_lt_pow_right (by decide) h
    simp only [flagBit, if_true, BitVec.toNat_shiftLeft, BitVec.toNat_ofNat, Nat.shiftLeft_eq]
    exact lt_of_le_of_lt (Nat.mod_le _ _) (by simpa using hpow)

/-- `STATUS` has no bit above bit 5 (R23). -/
theorem statusWord_toNat_lt (s : State) : (statusWord s).toNat < 2 ^ 6 := by
  simp only [statusWord, BitVec.toNat_or]
  refine Nat.or_lt_two_pow (Nat.or_lt_two_pow (Nat.or_lt_two_pow (Nat.or_lt_two_pow (Nat.or_lt_two_pow ?_ ?_) ?_) ?_)
    ?_) ?_ <;> exact flagBit_toNat_lt (by decide) _

/-- A flag at bit 0 is the number of its bit. -/
theorem flagBit_zero_eq_mod (v : Word) : flagBit (v.getLsbD 0) 0 = BitVec.ofNat 32 (v.toNat % 2) := by
  rcases Nat.mod_two_eq_zero_or_one v.toNat with h | h <;> simp [flagBit, BitVec.getLsbD, Nat.testBit_zero, h]

/-- `ACC` i is 32 bits of the accumulator as a number (R38). -/
theorem accWord_eq (s : State) (i : Fin 5) :
    accWord s i = BitVec.ofNat 32 (s.macAcc.toNat / 2 ^ (32 * i.val) % 2 ^ 32) := by
  apply BitVec.eq_of_toNat_eq
  simp [accWord, BitVec.extractLsb'_toNat, Nat.shiftRight_eq_div_pow]

/-- Settles O50: each clause is the read or the write of one register. -/
theorem statusIsWriteOneToClear : Obligations.StatusIsWriteOneToClear := by
  intro s v
  refine ⟨_, busWrite_unlocked (r := .status) (by simp [lockedWhileBusy]) v, rfl,
    ⟨_, busRead_visible (r := .status) (by simp [hiddenWhileBusy]), ?_⟩,
    ⟨_, busRead_visible (r := .errcode) (by simp [hiddenWhileBusy]), ?_⟩,
    busRead_visible (r := .id) (by simp [hiddenWhileBusy]),
    busRead_visible (r := .cmd) (by simp [hiddenWhileBusy]), fun hb i => ?_⟩
  · have hlt := statusWord_toNat_lt s
    simpa [readReg, statusWord, flagBit_getElem] using hlt
  · simp only [readReg, errcodeWord]
    cases s.errcode <;> decide
  · exact (busRead_idle hb (.acc i)).trans (by rw [readReg, accWord_eq]; rfl)

/-- Settles O51: without `SRESET` the write is that of bit 0, and `CTRL` shows that bit. -/
theorem ctrlWriteSetsInterruptEnable : Obligations.CtrlWriteSetsInterruptEnable := by
  intro s v hv
  have hwrite := writeReg_ctrl_of_not_sreset s hv
  refine ⟨_, busWrite_unlocked (r := .ctrl) (by simp [lockedWhileBusy]) v, hwrite, ?_, ?_⟩
  · refine (busRead_visible (r := .ctrl) (by simp [hiddenWhileBusy])).trans ?_
    rw [hwrite, readReg, ctrlWord, flagBit_zero_eq_mod]
    rfl
  · simp [hwrite, irq]

/-! ### Resets (R42, R133, R134) -/

/-- At power-on every register but `ID` reads 0 (R42). -/
theorem readReg_powerOn (c : Config) {r : Reg} (h : r ≠ .id) : readReg (State.powerOn c) r = 0#32 := by
  cases r with
  | id => exact absurd rfl h
  | status => simp [readReg, statusWord, flagBit]
  | nonce i | mackey i | state i | tag i => exact Vector.getElem_replicate i.isLt
  | acc i => simp [readReg, accWord]
  | _ => rfl

/-- Settles O53: the values of `State.powerOn`, which a power-on reset of a running block leaves too. -/
theorem powerOnResetValues : Obligations.PowerOnResetValues := by
  intro c
  refine ⟨fun r => ?_, fun i => Vector.getElem_replicate i.isLt, rfl, rfl, rfl, rfl, rfl, rfl, fun _ => rfl, ?_⟩
  · split
    · subst r
      rfl
    · exact readReg_powerOn c (by assumption)
  · rintro s rest rfl hi
    simp only [step, takeTurn, hi]
    rfl

/-- A write of `CTRL` with `SRESET` is a soft reset, idle or busy, whatever its other bits (R22, R134). -/
theorem busWrite_sreset {s : State} {v : Word} (hv : v.getLsbD 1 = true) :
    busWrite s 0x004 .w4 v = (softReset s, writeResponse) := by
  rw [← writeReg_ctrl_of_sreset s hv]
  exact busWrite_unlocked (r := .ctrl) (by simp [lockedWhileBusy]) v

/-- Settles O54: with nothing to abort, a soft reset is `resetRegisters` on the buffer as it is. -/
theorem softResetWhileIdleKeepsTheBuffer : Obligations.SoftResetWhileIdleKeepsTheBuffer := by
  intro s v hb hv
  rw [busWrite_sreset hv, softReset, hb]
  rfl

/-! ### An abort (R135) -/

/-- Only XOR, SEAL and OPEN have bytes to write. -/
theorem writer_of_bufferOutput {i : Instr} {s : State} {out : List Byte} (h : bufferOutput i s = .ok out)
    (hne : out ≠ []) : i = .xor ∨ i = .aeadSeal ∨ i = .aeadOpen := by
  cases i with
  | xor => exact .inl rfl
  | aeadSeal => exact .inr (.inl rfl)
  | aeadOpen => exact .inr (.inr rfl)
  | _ => exact absurd (by simpa [bufferOutput] using h.symm) hne

section Writer

variable {i : Instr} (hi : i = .xor ∨ i = .aeadSeal ∨ i = .aeadOpen) {s : State}
include hi

/-- A command that writes the buffer and has its output completes without error, and the buffer then is the old one with
that output written at `DST`. -/
theorem exec_of_bufferOutput {out : List Byte} (h : bufferOutput i s = .ok out) :
    ∃ u, exec i s = .next u ∧ u.errcode = .none ∧ u.mem = writeBytes s.mem s.dst.toNat out := by
  rcases hi with rfl | rfl | rfl
  · have hx : xorOutput s = .ok out := h
    exact ⟨complete .none (storeOutput s out), by simp only [exec, execXor, hx, finish_ok], rfl, rfl⟩
  · simp only [bufferOutput] at h
    split at h
    · rename_i ct tag hs
      cases h
      exact ⟨complete .none { storeOutput s out with tag := tagWords tag }, by simp only [exec, execSeal, hs, finish_ok],
        rfl, rfl⟩
    · simp at h
  · have ho : openOutput s = .ok out := h
    exact ⟨complete .none (storeOutput s out), by simp only [exec, execOpen, ho, finish_ok], rfl, rfl⟩

/-- A command that writes the buffer faults where its output needs a byte that nothing has written (R56). -/
theorem exec_of_bufferOutput_unwritten {x : Nat} (h : bufferOutput i s = .error (.unwritten x)) :
    exec i s = .fault (.unwrittenByte x) := by
  rcases hi with rfl | rfl | rfl
  · have hx : xorOutput s = .error (.unwritten x) := h
    simp only [exec, execXor, hx, finish_unwritten]
  · simp only [bufferOutput] at h
    split at h
    · simp at h
    · rename_i e hs
      cases h
      simp only [exec, execSeal, hs, finish_unwritten]
  · have ho : openOutput s = .error (.unwritten x) := h
    simp only [exec, execOpen, ho, finish_unwritten]

/-- The output on filled operands is the command's own wherever the command itself goes on. -/
theorem exec_next_of_operandsFilled {out : List Byte} {u : State} (h : bufferOutput i (operandsFilled s) = .ok out)
    (hu : exec i s = .next u) : u.errcode = .none ∧ u.mem = writeBytes s.mem s.dst.toNat out := by
  have hwritten : ∀ x, bufferOutput i s ≠ .error (.unwritten x) := fun x hx => by
    simp [exec_of_bufferOutput_unwritten hi hx] at hu
  have hout : bufferOutput i s = .ok out :=
    (bufferOutput_of_keepsWritten (keepsWritten_operandsFilled s) hwritten).symm.trans h
  obtain ⟨u', hu', hcode, hmem⟩ := exec_of_bufferOutput hi hout
  cases hu.symm.trans hu'
  exact ⟨hcode, hmem⟩

end Writer

/-- Settles O55: by `softReset_cases` the buffer is the old one or mixes in the pending command's output on filled
operands, which is the filled buffer `m` of the statement. -/
theorem abortLeavesEachByteOldOrNew : Obligations.AbortLeavesEachByteOldOrNew := by
  intro s v _ hv
  obtain ⟨m, hreset, hm⟩ := softReset_cases s
  refine ⟨resetRegisters m s, (operandsFilled s).mem, by rw [busWrite_sreset hv, hreset]; rfl, rfl,
    keepsWritten_operandsFilled s, fun a => ?_⟩
  simp only [resetRegisters_mem]
  rcases hm with rfl | ⟨_, i, out, hdec, hout, rfl⟩
  · exact .inl rfl
  · rcases readByte_mixBytes s.freeTick s.mem s.dst.toNat a out with hold | ⟨⟨hlo, hhi⟩, hnew⟩
    · exact .inl hold
    · have hne : out ≠ [] := by rintro rfl; simp at hhi
      have hi := writer_of_bufferOutput hout hne
      have hlen : out.length = s.len.toNat := by
        rcases bufferOutput_ok hout with h | ⟨h, _⟩
        · exact absurd h hne
        · exact h
      have hbyte : ∀ m : Memory, readByte (writeBytes m s.dst.toNat out) a = some (out[a - s.dst.toNat]'hhi) :=
        fun m => by rw [readByte_writeBytes, dif_pos ⟨hlo, hhi⟩]
      obtain ⟨u, hu, hcode, hmem⟩ := exec_of_bufferOutput hi hout
      refine .inr ⟨i, u, hdec, hi, hlo, by omega, hu, hcode, ?_, fun u' hu' => ?_⟩
      · rw [hnew, hmem]
        exact (hbyte _).symm
      · obtain ⟨hcode', hmem'⟩ := exec_next_of_operandsFilled hi hout hu'
        exact ⟨hcode', by rw [hnew, hmem', hbyte]⟩

/-! ### What no command writes (R69) -/

/-- The result registers, the MAC session and the buffer are none of what commands leave alone. -/
theorem commandsLeave_setResults (s : State) (mackey : Vector Word 8) (state : Vector Word 16) (tag : Vector Word 4)
    (macActive : Bool) (macR macS : BitVec 128) (macAcc : BitVec 130) (mem : Memory) :
    commandsLeave s { s with mackey := mackey, state := state, tag := tag, macActive := macActive, macR := macR,
                             macS := macS, macAcc := macAcc, mem := mem } := by
  simp [commandsLeave]

/-- A command's rule writes no operand register, no parameter, and neither `CTRL` nor `WERR`. -/
theorem commandsLeave_of_commandEffect {i : Instr} {s u : State} (h : commandEffect i s u) : commandsLeave s u := by
  cases i with
  | init | dround | permute | block | keygen | macInit => subst h; exact commandsLeave_setResults ..
  | qround a b c d | macFinal => obtain ⟨_, rfl⟩ := h; exact commandsLeave_setResults ..
  | xor | aeadOpen => obtain ⟨out, _, rfl⟩ := h; exact commandsLeave_setResults ..
  | aeadSeal => obtain ⟨ct, tag, _, rfl⟩ := h; exact commandsLeave_setResults ..
  | macUpdate => obtain ⟨_, _, D, _, rfl⟩ := h; exact commandsLeave_setResults ..
  | mac => obtain ⟨_, D, _, rfl⟩ := h; exact commandsLeave_setResults ..

/-- Nor do the last lines of a completion, whatever code they report. -/
theorem commandsLeave_complete {s u : State} (h : commandsLeave s u) (e : ErrCode) : commandsLeave s (complete e u) := by
  simpa [commandsLeave] using h

theorem commandsLeave_of_completion {s t : State} (h : completion s = .next t) : commandsLeave s t := by
  rcases completion_next h with ⟨e, _, rfl⟩ | ⟨i, u, _, hu, rfl⟩
  · exact commandsLeave_complete (by simp [commandsLeave]) e
  · exact commandsLeave_complete (commandsLeave_of_commandEffect hu) .none

theorem werr_of_completion {s t : State} (h : completion s = .next t) : t.werr = s.werr := by
  obtain ⟨_, _, hwerr, _⟩ := commandsLeave_of_completion h
  exact hwerr

theorem key_of_completion {s t : State} (h : completion s = .next t) : t.key = s.key := by
  obtain ⟨_, _, _, _, _, _, _, _, _, _, hkey, _⟩ := commandsLeave_of_completion h
  exact hkey

/-! ### How `WERR` falls (R119) -/

/-- The register writes that can clear `WERR`: that of `STATUS` with bit 4, and that of `CTRL` with `SRESET`. -/
theorem werr_of_writeReg {s : State} {v : Word} {r : Reg} (h : s.werr = true) :
    (writeReg s v r).werr = true ∨ (r = .status ∧ v.getLsbD 4 = true) ∨ (r = .ctrl ∧ v.getLsbD 1 = true) := by
  cases r with
  | status =>
    rcases hv : v.getLsbD 4 with _ | _
    · exact .inl (by rw [writeReg, writeStatus_werr, h, hv]; rfl)
    · exact .inr (.inl ⟨rfl, rfl⟩)
  | ctrl =>
    rcases hv : v.getLsbD 1 with _ | _
    · exact .inl (by rw [writeReg_ctrl_of_not_sreset s hv, h])
    · exact .inr (.inr ⟨rfl, rfl⟩)
  | _ => exact .inl h

theorem werr_of_busWrite {s t : State} {off : Nat} {w : Width} {v : Word} {r : BusResponse}
    (hw : busWrite s off w v = (t, r)) (h : s.werr = true) :
    t.werr = true ∨ (off = 0x008 ∧ w = .w4 ∧ v.getLsbD 4 = true) ∨ (off = 0x004 ∧ w = .w4 ∧ v.getLsbD 1 = true) := by
  rcases busWrite_cases hw with rfl | ⟨_, rfl⟩ | ⟨g, rfl, rfl, _, rfl⟩ | ⟨_, _, _, _, rfl⟩
  · exact .inl h
  · exact .inl rfl
  · rcases werr_of_writeReg (v := v) (r := g) h with hset | ⟨rfl, hv⟩ | ⟨rfl, hv⟩
    · exact .inl hset
    · exact .inr (.inl ⟨rfl, rfl, hv⟩)
    · exact .inr (.inr ⟨rfl, rfl, hv⟩)
  · exact .inl h

/-- Settles O58, by the cases of `step_next`: of these only a host write and a power-on reset touch `WERR`. -/
theorem werrIsSticky : Obligations.WerrIsSticky := by
  intro s t hstep h
  rcases step_next hstep with ⟨_, rfl | ⟨rest, _, rfl⟩⟩ | ⟨_, s', hs', hc⟩ | ⟨rest, off, w, r, _, _, _, rfl⟩
    | ⟨rest, off, w, v, u, r, hi, hw, _, rfl⟩ | ⟨rest, hi, _⟩
  · exact .inl h
  · exact .inl h
  · refine .inl ((werr_of_completion hc).trans ?_)
    rcases hs' with rfl | rfl <;> exact h
  · exact .inl h
  · rcases werr_of_busWrite hw h with hset | ⟨rfl, rfl, hv⟩ | ⟨rfl, rfl, hv⟩
    · exact .inl hset
    · exact .inr (.inl ⟨v, rest, hi, hv⟩)
    · exact .inr (.inr (.inl ⟨v, rest, hi, hv⟩))
  · exact .inr (.inr (.inr ⟨rest, hi⟩))

/-! ### How `KEY` changes (R35) -/

/-- The register writes that can change the key: that of one of its words, and that of `CTRL` with `SRESET`. -/
theorem key_of_writeReg (s : State) (v : Word) (r : Reg) :
    (writeReg s v r).key = s.key ∨ (∃ i, r = .key i ∧ (writeReg s v r).key = s.key.set i v)
      ∨ (r = .ctrl ∧ v.getLsbD 1 = true) := by
  cases r with
  | key i => exact .inr (.inl ⟨i, rfl, rfl⟩)
  | ctrl =>
    rcases hv : v.getLsbD 1 with _ | _
    · exact .inl (by rw [writeReg_ctrl_of_not_sreset s hv])
    · exact .inr (.inr ⟨rfl, rfl⟩)
  | _ => exact .inl rfl

theorem key_of_busWrite {s t : State} {off : Nat} {w : Width} {v : Word} {r : BusResponse}
    (hw : busWrite s off w v = (t, r)) (h : t.key ≠ s.key) :
    (∃ i : Fin 8, off = 0x040 + 4 * i.val ∧ w = .w4 ∧ s.busy = false ∧ t.key = s.key.set i v)
      ∨ (off = 0x004 ∧ w = .w4 ∧ v.getLsbD 1 = true) := by
  rcases busWrite_cases hw with rfl | ⟨_, rfl⟩ | ⟨g, rfl, rfl, hfree, rfl⟩ | ⟨_, _, _, _, rfl⟩
  · exact absurd rfl h
  · exact absurd rfl h
  · rcases key_of_writeReg s v g with hsame | ⟨i, rfl, hset⟩ | ⟨rfl, hv⟩
    · exact absurd hsame h
    · exact .inl ⟨i, rfl, rfl, by simpa [lockedWhileBusy] using hfree, hset⟩
    · exact .inr ⟨rfl, rfl, hv⟩
  · exact absurd rfl h

/-- Settles O59, by the cases of `step_next`: of these only a host write and a power-on reset touch `KEY`. -/
theorem onlyHostAndResetsWriteTheKey : Obligations.OnlyHostAndResetsWriteTheKey := by
  intro s t hstep h
  rcases step_next hstep with ⟨_, rfl | ⟨rest, _, rfl⟩⟩ | ⟨_, s', hs', hc⟩ | ⟨rest, off, w, r, _, _, _, rfl⟩
    | ⟨rest, off, w, v, u, r, hi, hw, _, rfl⟩ | ⟨rest, hi, _⟩
  · exact absurd rfl h
  · exact absurd rfl h
  · refine absurd ((key_of_completion hc).trans ?_) h
    rcases hs' with rfl | rfl <;> rfl
  · exact absurd rfl h
  · rcases key_of_busWrite hw h with ⟨i, rfl, rfl, hidle, hset⟩ | ⟨rfl, rfl, hv⟩
    · exact .inl ⟨i, v, rest, hi, hidle, hset⟩
    · exact .inr (.inl ⟨v, rest, hi, hv⟩)
  · exact .inr (.inr ⟨rest, hi⟩)

end Sys2Proof.Machine

/-! ## Accesses to the buffer, accesses while busy, and unwritten bytes -/

namespace Sys2Proof.Machine

/-! ### XOR as a front-to-back transfer (R55, R117) -/

/-- Counter mode combines each byte with the keystream byte of its own position (R87). -/
theorem stream_eq_mapIdx (K : Vector Word 8) (N : Vector Word 3) (c : Nat) (D : List Byte) :
    stream K N c D = D.mapIdx fun j b => b ^^^ keystreamByte K N c j := by
  refine List.ext_getElem (by simp) fun j h _ => ?_
  rw [stream_getElem K N c D j h (by simpa using h), List.getElem_mapIdx]

/-- Ranges that do not overlap partly lie so that no byte written at `dst` is one still to be read at `src`. -/
theorem dst_le_or_disjoint_of_not_overlapsPartly {a b n : Word} (h : ¬ overlapsPartly a b n) :
    b.toNat ≤ a.toNat ∨ a.toNat + n.toNat ≤ b.toNat := by
  by_contra hc
  refine h ⟨by omega, ?_, by omega, by omega⟩
  rintro rfl
  omega

/-- A write outside a range leaves what the range holds. -/
theorem holdsBytes_writeByte {m : Memory} {a x : Nat} {D : List Byte} (h : holdsBytes m a D)
    (hx : x < a ∨ a + D.length ≤ x) (b : Byte) : holdsBytes (writeByte m x b) a D := by
  intro j hj
  rw [readByte_writeByte, if_neg (by omega)]
  exact h j hj

theorem holdsBytes_cons {m : Memory} {a : Nat} {b : Byte} {D : List Byte} :
    holdsBytes m a (b :: D) ↔ readByte m a = some b ∧ holdsBytes m (a + 1) D := by
  constructor
  · intro h
    refine ⟨h 0 (by simp), fun j hj => ?_⟩
    rw [Nat.add_right_comm]
    exact h (j + 1) (by simpa using hj)
  · rintro ⟨hb, hD⟩ (_ | j) hj
    · exact hb
    · rw [← Nat.add_assoc, Nat.add_right_comm]
      exact hD j (by simpa using hj)

/-- When no byte is written before it is read, the front-to-back transfer of a written message is one write of all its
combined bytes. -/
theorem streamFrontToBack_eq_writeBytes (K : Vector Word 8) (N : Vector Word 3) (c : Nat) {src dst k : Nat} {m : Memory}
    {D : List Byte} (hD : holdsBytes m (src + k) D) (hsep : dst ≤ src ∨ src + D.length ≤ dst) :
    streamFrontToBack K N c src dst k D.length m =
      some (writeBytes m (dst + k) (D.mapIdx fun j b => b ^^^ keystreamByte K N c (k + j))) := by
  induction D generalizing k m with
  | nil => rfl
  | cons b D ih =>
    obtain ⟨hb, hD⟩ := holdsBytes_cons.mp hD
    rw [List.length_cons] at hsep
    have hrest := holdsBytes_writeByte hD (x := dst + k) (by omega) (b ^^^ keystreamByte K N c k)
    rw [Nat.add_assoc] at hrest
    simp [streamFrontToBack, hb, ih hrest (by omega), writeBytes, Nat.add_assoc, Nat.add_comm 1]

/-- Settles O24: XOR's output and the transfer from the front are the same write, since XOR has refused every overlap in
which a byte would be written before it is read. -/
theorem xorEqualsFrontToBackStreaming : Obligations.XorEqualsFrontToBackStreaming := by
  intro s t h hcode
  rcases exec_next h with ⟨e, he, rfl⟩ | ⟨u, ⟨out, hout, rfl⟩, rfl⟩
  · exact absurd hcode he
  · obtain ⟨_, _, hoverlap, _, D, hD, rfl⟩ := xorOutput_ok hout
    obtain ⟨hlen, hholds⟩ := readMessage_ok hD
    have hsep := dst_le_or_disjoint_of_not_overlapsPartly hoverlap
    rw [← hlen] at hsep ⊢
    refine ⟨_, streamFrontToBack_eq_writeBytes s.key s.nonce s.counter.toNat (k := 0) hholds hsep, fun a => ?_⟩
    simp [stream_eq_mapIdx]

/-! ### Accesses to the buffer region (R48, R52, R53) -/

section BufferAccess

variable {s : State} {off : Nat} {w : Width} (hlo : 0x1000 ≤ off) (hhi : off < 0x1000 + s.cfg.bufBytes)
  (hal : off % widthBytes w = 0)
include hlo hhi hal

theorem busWrite_buffer_idle (hb : s.busy = false) (v : Word) :
    busWrite s off w v =
      ({ s with mem := writeBytes s.mem (off - 0x1000) (busBytes (widthBytes w) v) }, writeResponse) := by
  simp [busWrite, not_legalRegister_of_buffer hlo, (legalBuffer_iff _ _ _).mpr ⟨hlo, hhi, hal⟩, hb]

/-- A write of the buffer is dropped while a command is pending (R52). -/
theorem busWrite_buffer_busy (hb : s.busy = true) (v : Word) : busWrite s off w v = (dropWrite s, writeResponse) := by
  simp [busWrite, not_legalRegister_of_buffer hlo, (legalBuffer_iff _ _ _).mpr ⟨hlo, hhi, hal⟩, hb]

theorem busRead_buffer_idle (hb : s.busy = false) {bs : List Byte}
    (hr : readBytes s.mem (off - 0x1000) (widthBytes w) = .ok bs) : busRead s off w = .ok (readResponse (le32 bs)) := by
  simp [busRead, not_legalRegister_of_buffer hlo, (legalBuffer_iff _ _ _).mpr ⟨hlo, hhi, hal⟩, hb, hr]

/-- An idle read of the buffer faults at the first byte that holds no value (R56). -/
theorem busRead_buffer_unwritten (hb : s.busy = false) {a : Nat}
    (hr : readBytes s.mem (off - 0x1000) (widthBytes w) = .error a) : busRead s off w = .error (.unwrittenByte a) := by
  simp [busRead, not_legalRegister_of_buffer hlo, (legalBuffer_iff _ _ _).mpr ⟨hlo, hhi, hal⟩, hb, hr]

/-- The buffer is not read while a command is pending: it gives 0, written or not (R53). -/
theorem busRead_buffer_busy (hb : s.busy = true) : busRead s off w = .ok (readResponse 0#32) := by
  simp [busRead, not_legalRegister_of_buffer hlo, (legalBuffer_iff _ _ _).mpr ⟨hlo, hhi, hal⟩, hb]

end BufferAccess

/-! ### Bus data as bytes (R47) -/

@[simp] theorem busBytes_length (n : Nat) (v : Word) : (busBytes n v).length = n := leBytes_length _ _

/-- Byte `j` of bus data is its bits `8j+7 : 8j`. -/
theorem busBytes_getElem (n : Nat) (v : Word) (j : Nat) (h : j < (busBytes n v).length) :
    (busBytes n v)[j] = v.extractLsb' (8 * j) 8 := by
  simp only [busBytes, leBytes_getElem]
  apply BitVec.eq_of_toNat_eq
  simp [Nat.shiftRight_eq_div_pow, Nat.pow_mul]

/-- The low `n` bytes of bus data make the number of its low `8n` bits. -/
theorem le32_busBytes (n : Nat) (v : Word) : le32 (busBytes n v) = BitVec.ofNat 32 (v.toNat % 2 ^ (8 * n)) := by
  rw [le32, busBytes, leInt_leBytes, Nat.pow_mul]

theorem holdsBytes_writeBytes (m : Memory) (a : Nat) (bs : List Byte) : holdsBytes (writeBytes m a bs) a bs :=
  fun j => readByte_writeBytes_inside m a j bs

/-- Settles O43: the write is `writeBytes` of the data's bytes, little-endian, and the read finds exactly these. -/
theorem bufferWriteIsLittleEndianAndReadsBack : Obligations.BufferWriteIsLittleEndianAndReadsBack := by
  intro s off w v hb hlo hhi hal
  have hholds := holdsBytes_writeBytes s.mem (off - 0x1000) (busBytes (widthBytes w) v)
  refine ⟨_, busWrite_buffer_idle hlo hhi hal hb v, fun j hj => ?_, fun a ha => ?_, rfl, ?_⟩
  · rw [← busBytes_getElem (widthBytes w) v j (by simpa using hj)]
    exact hholds j (by simpa using hj)
  · exact readByte_writeBytes_outside _ _ _ _ (by simpa using ha)
  · rw [← le32_busBytes]
    exact busRead_buffer_idle (s := { s with mem := writeBytes s.mem _ _ }) hlo hhi hal hb
      (readBytes_of_holds (busBytes_length _ _) hholds)

/-! ### Reads of unwritten bytes (R56) -/

theorem firstUnwritten.readBytes_eq {m : Memory} {a n k : Nat} (h : firstUnwritten m a n k) :
    readBytes m a n = .error (a + k) := by
  obtain ⟨hk, hnone, hbefore⟩ := h
  exact readBytes_of_unwritten hk hnone hbefore

theorem firstUnwritten.readMessage_eq {s : State} {a n : Word} {k : Nat}
    (h : firstUnwritten s.mem a.toNat n.toNat k) : readMessage s a n = .error (.unwritten (a.toNat + k)) := by
  rw [readMessage, h.readBytes_eq]

section UnwrittenMessage

variable {s : State} {x : Nat} (hr : readMessage s s.src s.len = .error (.unwritten x))
include hr

theorem exec_mac_of_unwritten (hb : inBuffer s s.src s.len) : exec .mac s = .fault (.unwrittenByte x) := by
  simp [exec, execMac, (rangeOk_iff _ _ _).mpr hb, hr]

theorem exec_macUpdate_of_unwritten (ha : s.macActive = true) (hb : inBuffer s s.src s.len) :
    exec .macUpdate s = .fault (.unwrittenByte x) := by
  simp [exec, execMacUpdate, ha, (rangeOk_iff _ _ _).mpr hb, hr]

/-- XOR reads its message once its checks pass (R91), so it faults there. -/
theorem exec_xor_of_unwritten (hsrc : inBuffer s s.src s.len) (hdst : inBuffer s s.dst s.len)
    (ho : ¬ overlapsPartly s.src s.dst s.len) (hc : counterStays s.counter.toNat s.len) :
    exec .xor s = .fault (.unwrittenByte x) := by
  refine exec_of_bufferOutput_unwritten (.inl rfl) ?_
  rcases xorOutput_cases s with ⟨h, _⟩ | ⟨_, ⟨h, _⟩ | ⟨_, ⟨h, _⟩ | ⟨_, ⟨D, hD, _⟩ | ⟨y, hy, hout⟩⟩⟩⟩
  · exact absurd ⟨hsrc, hdst⟩ h
  · exact absurd h ho
  · exact absurd hc h
  · cases hr.symm.trans hD
  · cases hr.symm.trans hy
    exact hout

end UnwrittenMessage

/-- SEAL's and OPEN's operands once their checks pass, the message is written and the associated data is not (R56). -/
theorem aeadOperands_of_unwritten_aad {s : State} {M : List Byte} {x : Nat} (hb : aeadInBuffer s)
    (ho : ¬ aeadOverlaps s) (hm : readMessage s s.src s.len = .ok M)
    (ha : readMessage s s.aad s.aadlen = .error (.unwritten x)) : aeadOperands s = .error (.unwritten x) := by
  rcases aeadOperands_cases s with ⟨h, _⟩ | ⟨_, ⟨h, _⟩ | ⟨_, ⟨h, _⟩ | ⟨_, ⟨M', A, _, hA, _⟩ | ⟨y, hy | hy, hout⟩⟩⟩⟩
  · exact absurd hb h
  · exact absurd h ho
  · exact absurd (counterStays_one _) h
  · cases ha.symm.trans hA
  · cases hm.symm.trans hy
  · cases ha.symm.trans hy
    exact hout

/-- SEAL and OPEN fault at the unwritten byte their operands stop at. -/
theorem exec_aead_of_unwritten {s : State} {x : Nat} (h : aeadOperands s = .error (.unwritten x)) :
    exec .aeadSeal s = .fault (.unwrittenByte x) ∧ exec .aeadOpen s = .fault (.unwrittenByte x) :=
  ⟨exec_of_bufferOutput_unwritten (.inr (.inl rfl)) (by simp [bufferOutput, sealOutput, h]),
    exec_of_bufferOutput_unwritten (.inr (.inr rfl)) (by simp [bufferOutput, openOutput, h])⟩

/-- Settles O42: once its checks pass, each command's first unwritten operand byte is where `readMessage` stops. -/
theorem readingAnUnwrittenByteFaults : Obligations.ReadingAnUnwrittenByteFaults := by
  intro s k
  refine ⟨fun hk => ?_, fun M hlen hM hk hb ho => ?_, fun off w hb hlo hhi hal hk => ?_⟩
  · have hr := hk.readMessage_eq
    exact ⟨exec_mac_of_unwritten hr, exec_macUpdate_of_unwritten hr, exec_xor_of_unwritten hr,
      fun hb ho => exec_aead_of_unwritten (aeadOperands_of_unwritten hb ho (counterStays_one _) hr)⟩
  · exact exec_aead_of_unwritten
      (aeadOperands_of_unwritten_aad hb ho (readMessage_of_holds hlen hM) hk.readMessage_eq)
  · exact busRead_buffer_unwritten hlo hhi hal hb hk.readBytes_eq

/-! ### What a pending command locks and hides (R52, R53) -/

/-- The locked registers by their offsets: `CMD`, `LEN` to `NONCE2`, and `KEY0` to `TAG3` (R17, R52). -/
theorem lockedWhileBusy_of_offset {r : Reg} (h : regOffset r = 0x00C ∨ (0x014 ≤ regOffset r ∧ regOffset r ≤ 0x034)
      ∨ (0x040 ≤ regOffset r ∧ regOffset r ≤ 0x0CC)) : lockedWhileBusy r = true := by
  cases r with
  | id | ctrl | status | errcode => simp [regOffset] at h
  | acc i => simp only [regOffset] at h; omega
  | _ => rfl

/-- The hidden registers are those from `MACKEY0` on (R17, R53). -/
theorem hiddenWhileBusy_eq (r : Reg) : hiddenWhileBusy r = decide (0x060 ≤ regOffset r) := by
  cases r with
  | mackey i | state i | tag i | acc i => exact (decide_eq_true (by simp only [regOffset]; omega)).symm
  | nonce i | key i => exact (decide_eq_false (by simp only [regOffset]; omega)).symm
  | _ => rfl

/-- A write of a locked register is dropped (R52). -/
theorem busWrite_locked {s : State} {r : Reg} (hb : s.busy = true) (hr : lockedWhileBusy r = true) (v : Word) :
    busWrite s (regOffset r) .w4 v = (dropWrite s, writeResponse) := by
  simp [hb, hr]

/-- A read of a hidden register gives 0 (R53). -/
theorem busRead_hidden {s : State} {r : Reg} (hb : s.busy = true) (hr : hiddenWhileBusy r = true) :
    busRead s (regOffset r) .w4 = .ok (readResponse 0#32) := by
  simp [hb, hr]

/-- Settles O48: a locked register and the buffer drop the write, and every other register takes it as when idle. -/
theorem writeWhileBusyIsDroppedAndSetsWerr : Obligations.WriteWhileBusyIsDroppedAndSetsWerr := by
  intro s v hb
  refine ⟨fun off h4 hoff => ?_, fun off w hlo hhi hal => busWrite_buffer_busy hlo hhi hal hb v, fun off h4 hoff => ?_,
    busWrite_unlocked (r := .status) (by simp [lockedWhileBusy]) v, fun hv => ?_⟩
  · obtain ⟨r, rfl⟩ := exists_regOffset h4 (by omega) (by omega) (by omega)
    exact busWrite_locked hb (lockedWhileBusy_of_offset hoff) v
  · obtain ⟨hreserved, hreadOnly⟩ := reservedOffsetsReadZeroIgnoreWrites s off v h4
    by_cases hr : off = 0x038 ∨ off = 0x03C ∨ (0x0E4 ≤ off ∧ off ≤ 0xFFC)
    · exact (hreserved hr).2
    · exact hreadOnly (by omega)
  · obtain ⟨t, hwrite, rfl, _⟩ := ctrlWriteSetsInterruptEnable s v hv
    exact hwrite

/-- Settles O49: the hidden registers are those from 0x060 on, and no reserved offset lies among them. -/
theorem outputsReadZeroWhileBusy : Obligations.OutputsReadZeroWhileBusy := by
  intro s hb
  refine ⟨fun off h4 hlo hhi => ?_, fun off w hlo hhi hal => busRead_buffer_busy hlo hhi hal hb, fun r hr => ?_⟩
  · obtain ⟨r, rfl⟩ := exists_regOffset h4 (by omega) (by omega) (by omega)
    exact busRead_hidden hb (by simp [hiddenWhileBusy_eq, hlo])
  · exact busRead_visible (by simp [hiddenWhileBusy_eq, hr])

/-! ### Accesses that are not legal (R49) -/

/-- Settles O44: neither region's row of R48's table allows the access. -/
theorem illegalAccessIsABusErrorWithoutEffect : Obligations.IllegalAccessIsABusErrorWithoutEffect := by
  intro s off w v h
  have hreg : ¬ legalRegister off w = true := fun hl => h (.inl ((legalRegister_iff _ _).mp hl))
  have hbuf : ¬ legalBuffer s.cfg off w = true := fun hl => h (.inr ((legalBuffer_iff _ _ _).mp hl))
  exact ⟨by rw [busRead, if_neg hreg, if_neg hbuf], by rw [busWrite, if_neg hreg, if_neg hbuf]⟩

/-! ### Host reads and waits as steps (R51, R73) -/

/-- `STATUS` is readable at any time (R53). -/
theorem busRead_status (s : State) : busRead s 0x008 .w4 = .ok (readResponse (statusWord s)) :=
  busRead_visible (r := .status) (by simp [hiddenWhileBusy])

/-- Bit 0 of `STATUS` is `BUSY` (R23). -/
theorem statusWord_getLsbD_zero (s : State) : (statusWord s).getLsbD 0 = s.busy := by
  simp [statusWord, flagBit_getElem]

theorem step_waitIdle_busy {s : State} {n : Nat} {rest : List Input} (hb : s.busy = true)
    (hi : s.inputs = .waitIdle (n + 1) :: rest) : step s = pollStatus s (.waitIdle n :: rest) := by
  simp [step, takeTurn, hi, hb]

/-- An idle block ends a `wait` at its next read, whatever the count. -/
theorem step_waitIdle_idle {s : State} {n : Nat} {rest : List Input} (hb : s.busy = false)
    (hi : s.inputs = .waitIdle n :: rest) : step s = pollStatus s rest := by
  cases n <;> simp [step, takeTurn, hi, hb]

/-- Settles O52: a read at the head of the inputs is `hostAccess`, and a `wait` is `pollStatus`. -/
theorem hostReadHasNoSideEffect : Obligations.HostReadHasNoSideEffect := by
  constructor
  · intro s t off w rest hi hstep
    have haccess : hostAccess { s with inputs := rest } (.read off w) = .next t := by
      simpa only [step, takeTurn, hi] using hstep
    obtain ⟨u, r, hu, hr, rfl⟩ := hostAccess_next haccess
    obtain ⟨rfl, hread⟩ := busAccess_read hu
    exact ⟨r, hread, hr, rfl⟩
  · intro s n rest
    refine ⟨fun hb hi => ?_, fun hb hi => ?_⟩
    · refine ⟨_, _, busRead_status s, rfl, (statusWord_getLsbD_zero s).trans hb, ?_⟩
      rw [step_waitIdle_busy hb hi, pollStatus_next]
    · refine ⟨_, _, busRead_status s, rfl, (statusWord_getLsbD_zero s).trans hb, ?_⟩
      rw [step_waitIdle_idle hb hi, pollStatus_next]

end Sys2Proof.Machine

/-! ## Command words, their completion, and the Sequencer's turn -/

namespace Sys2Proof

/-! ### The decoder (R67 to R71) -/

/-- Everything an opcode can select (R69): no command, QROUND with its index fields, or a command that is its opcode
alone. -/
theorem selectCommand_cases (w : Word) :
    ((w.toNat % 256 = 0 ∨ 14 ≤ w.toNat % 256) ∧ selectCommand w = none)
      ∨ (w.toNat % 256 = 2
          ∧ selectCommand w = some (.qround (indexField w 8) (indexField w 12) (indexField w 16) (indexField w 20)))
      ∨ (w.toNat % 256 ≠ 0 ∧ w.toNat % 256 < 14 ∧ w.toNat % 256 ≠ 2
          ∧ ∃ i, selectCommand w = some i ∧ allowedBits i = 0x000000FF#32 ∧ (encode i).toNat = w.toNat % 256) := by
  rw [← opcodeField_toNat]
  unfold selectCommand
  split
  case h_2 hop => exact .inr (.inl ⟨hop, rfl⟩)
  case h_14 =>
    refine .inl ⟨?_, rfl⟩
    simp only [imp_false] at *
    omega
  all_goals
    rename_i hop
    exact .inr (.inr ⟨by omega, by omega, by omega, _, rfl, rfl, hop.symm⟩)

theorem decode_of_selectCommand_none {w : Word} (h : selectCommand w = none) : decode w = .error .opcode := by
  simp only [decode, h]

theorem decode_of_selectCommand {w : Word} {i : Instr} (h : selectCommand w = some i) :
    decode w = if reservedClear i w then .ok i else .error .rsvd := by
  simp only [decode, h]

/-- A word decodes exactly to the command its opcode selects, when no reserved bit is 1. -/
theorem decode_eq_ok_iff {w : Word} {i : Instr} :
    decode w = .ok i ↔ selectCommand w = some i ∧ reservedClear i w = true := by
  rcases hs : selectCommand w with _ | j
  · simp [decode_of_selectCommand_none hs]
  · rw [decode_of_selectCommand hs]
    by_cases hr : reservedClear j w = true
    · rw [if_pos hr]
      simp only [Except.ok.injEq, Option.some.injEq]
      exact ⟨fun h => ⟨h, h ▸ hr⟩, fun h => h.1⟩
    · rw [if_neg hr]
      simp only [reduceCtorEq, Option.some.injEq, false_iff]
      exact fun h => hr (h.1 ▸ h.2)

/-! ### The two round trips (R69, R70) -/

/-- The opcode of a QROUND word is 2, and each of its index fields holds the index placed there. -/
theorem selectCommand_encode_qround (a b c d : Fin 16) :
    selectCommand (encode (.qround a b c d)) = some (.qround a b c d) := by
  have hn := encode_qround_toNat a b c d
  have ha : indexField (encode (.qround a b c d)) 8 = a := by rw [Fin.ext_iff, indexField_val]; omega
  have hb : indexField (encode (.qround a b c d)) 12 = b := by rw [Fin.ext_iff, indexField_val]; omega
  have hc : indexField (encode (.qround a b c d)) 16 = c := by rw [Fin.ext_iff, indexField_val]; omega
  have hd : indexField (encode (.qround a b c d)) 20 = d := by rw [Fin.ext_iff, indexField_val]; omega
  rcases selectCommand_cases (encode (.qround a b c d)) with ⟨hop, _⟩ | ⟨_, hs⟩ | ⟨_, _, hop, _⟩
  · omega
  · rw [hs, ha, hb, hc, hd]
  · omega

/-- Settles O1: QROUND by its fields, and every other command is one word. -/
theorem encodedCommandDecodesToItself : Obligations.EncodedCommandDecodesToItself := by
  intro i
  cases i with
  | qround a b c d =>
    have hn := encode_qround_toNat a b c d
    exact decode_eq_ok_iff.mpr
      ⟨selectCommand_encode_qround a b c d, (reservedClear_qround a b c d _).mpr (by omega)⟩
  | init | dround | permute | block | xor | macInit | macUpdate | macFinal | mac | keygen | aeadSeal | aeadOpen =>
    decide

/-- Settles O2: below its bound a word is its opcode and, for QROUND, its four index fields, and so is the encoding. -/
theorem decodedWordIsTheEncoding : Obligations.DecodedWordIsTheEncoding := by
  intro w i h
  obtain ⟨hs, hr⟩ := decode_eq_ok_iff.mp h
  apply BitVec.eq_of_toNat_eq
  rcases selectCommand_cases w with ⟨_, hnone⟩ | ⟨hop, hq⟩ | ⟨_, _, _, j, hj, hplain, henc⟩
  · simp [hnone] at hs
  · obtain rfl := Option.some.inj (hq.symm.trans hs)
    have hlt := (reservedClear_qround _ _ _ _ w).mp hr
    rw [encode_qround_toNat, indexField_val, indexField_val, indexField_val, indexField_val]
    omega
  · obtain rfl := Option.some.inj (hj.symm.trans hs)
    have hlt := (reservedClear_plain j w hplain).mp hr
    rw [henc]
    omega

/-! ### Every word (R70, R71) -/

theorem decode_of_illegal_opcode {w : Word} (h : w.toNat % 256 = 0 ∨ 14 ≤ w.toNat % 256) :
    decode w = .error .opcode := by
  rcases selectCommand_cases w with ⟨_, hs⟩ | ⟨hop, _⟩ | ⟨h0, h14, _⟩
  · exact decode_of_selectCommand_none hs
  · omega
  · omega

/-- A legal opcode selects a command, whose reserved bits are those from bit 24 (QROUND) or bit 8 (the others) on. -/
theorem selectCommand_of_legal_opcode {w : Word} (h1 : 1 ≤ w.toNat % 256) (h13 : w.toNat % 256 ≤ 13) :
    ∃ i, selectCommand w = some i
      ∧ (reservedClear i w = true ↔ w.toNat < if w.toNat % 256 = 2 then 2 ^ 24 else 2 ^ 8) := by
  rcases selectCommand_cases w with ⟨hop, _⟩ | ⟨hop, hs⟩ | ⟨_, _, hop, i, hs, hplain, _⟩
  · omega
  · exact ⟨_, hs, by rw [if_pos hop]; exact reservedClear_qround _ _ _ _ w⟩
  · exact ⟨i, hs, by rw [if_neg hop]; exact reservedClear_plain i w hplain⟩

/-- Settles O4: the commands' words by the round trip of O1. -/
theorem writtenOutWordsDecode : Obligations.WrittenOutWordsDecode :=
  ⟨encodedCommandDecodesToItself .init, encodedCommandDecodesToItself (.qround 2 7 8 13),
    encodedCommandDecodesToItself (.qround 4 9 14 3), encodedCommandDecodesToItself .xor,
    encodedCommandDecodesToItself .macFinal, encodedCommandDecodesToItself .aeadOpen,
    decode_of_illegal_opcode (by decide), by decide⟩

end Sys2Proof

namespace Sys2Proof.Machine

/-! ### The completion of a word (R65) -/

theorem completion_of_decode_ok {s : State} {i : Instr} (h : decode s.cmdWord = .ok i) : completion s = exec i s := by
  simp only [completion, h]

theorem completion_of_decode_error {s : State} {e : DecodeError} (h : decode s.cmdWord = .error e) :
    completion s = .next (complete (decodeErrCode e) s) := by
  simp only [completion, h, raiseError]

/-- Settles O3: the opcode is legal or not, and a legal one leaves the reserved bits to look at. -/
theorem everyWordIsACommandOrNamedError : Obligations.EveryWordIsACommandOrNamedError := by
  intro s op bound
  refine ⟨fun hop => ?_, fun h1 h13 hbound => ?_, fun h1 h13 hbound => ?_⟩
  · have hdec := decode_of_illegal_opcode hop
    exact ⟨hdec, completion_of_decode_error hdec⟩
  · obtain ⟨i, hs, hclear⟩ := selectCommand_of_legal_opcode h1 h13
    have hdec : decode s.cmdWord = .error .rsvd := by
      rw [decode_of_selectCommand hs, if_neg (fun hr => absurd (hclear.mp hr) (Nat.not_lt.mpr hbound))]
    exact ⟨hdec, completion_of_decode_error hdec⟩
  · obtain ⟨i, hs, hclear⟩ := selectCommand_of_legal_opcode h1 h13
    have hdec : decode s.cmdWord = .ok i := decode_eq_ok_iff.mpr ⟨hs, hclear.mpr hbound⟩
    exact ⟨i, hdec, completion_of_decode_ok hdec⟩

/-- Settles O5: at each of the three places of its turn the Sequencer runs `completion`. -/
theorem stepRunsTheDecodedCommand : Obligations.StepRunsTheDecodedCommand := by
  intro s i hb hdec
  refine ⟨fun hi => ?_, fun rest hi => ?_, fun rest hi => ?_⟩
  · simp only [step, takeTurn, hi, hb, if_true, completion_of_decode_ok hdec]
  · simp only [step, takeTurn, hi, hb, if_true]
    exact completion_of_decode_ok hdec
  · simp only [step, takeTurn, hi, hb, if_true, completion_of_decode_ok hdec]

/-- Settles O6: `CMD` is locked while busy, and an idle write of it is `accept`. -/
theorem cmdWriteIsAcceptanceWhileIdle : Obligations.CmdWriteIsAcceptanceWhileIdle := fun _ v =>
  ⟨fun hb => busWrite_idle hb .cmd v, fun hb => busWrite_locked (r := .cmd) hb rfl v⟩

/-! ### What a completion writes (R65, R113, R114) -/

/-- The interrupt output just after a completion, which sets `DONE` (R120). -/
theorem irq_complete (e : ErrCode) (s : State) : irq (complete e s) = s.irqEn := by
  simp [irq]

/-- Every command completes by `complete`, from a state with the operands and `CTRL` it found. -/
theorem exec_next_complete {i : Instr} {s t : State} (h : exec i s = .next t) :
    ∃ e u, commandsLeave s u ∧ t = complete e u := by
  rcases exec_next h with ⟨e, _, rfl⟩ | ⟨u, hu, rfl⟩
  · exact ⟨e, s, by simp [commandsLeave], rfl⟩
  · exact ⟨.none, u, commandsLeave_of_commandEffect hu, rfl⟩

/-- Settles O9: the last lines of a completion are `complete`, and no command writes `IRQ_EN`. -/
theorem completionWritesStatusAndErrcode : Obligations.CompletionWritesStatusAndErrcode := by
  intro i s t h
  obtain ⟨e, u, ⟨_, hirq, _⟩, rfl⟩ := exec_next_complete h
  exact ⟨rfl, rfl, rfl, by simp, by simp, by rw [irq_complete, hirq]⟩

/-- Whatever ends with an error code, of a word or of a command, is the error completion of the state before it. -/
theorem eq_complete_of_errcode_ne_none {s t : State}
    (h : completion s = .next t ∨ ∃ i, exec i s = .next t) (he : t.errcode ≠ .none) : t = complete t.errcode s := by
  rcases h with h | ⟨i, h⟩
  · rcases completion_next h with ⟨e, _, rfl⟩ | ⟨i, u, _, _, rfl⟩
    · rfl
    · exact absurd rfl he
  · rcases exec_next h with ⟨e, _, rfl⟩ | ⟨u, _, rfl⟩
    · rfl
    · exact absurd rfl he

/-- Settles O10: the error completion rewrites these fields only, and its code sets `ERR`. -/
theorem errorCompletionIsPrecise : Obligations.ErrorCompletionIsPrecise := by
  intro s t h he
  have herr : (t.errcode != .none) = true := by simpa using he
  calc t = complete t.errcode s := eq_complete_of_errcode_ne_none h he
    _ = _ := by rw [complete, herr]

/-! ### A pending command comes to its end (R66) -/

theorem completion_not_busy {s t : State} (h : completion s = .next t) : t.busy = false := by
  rcases completion_next h with ⟨e, _, rfl⟩ | ⟨i, u, _, _, rfl⟩
  · rfl
  · rfl

/-- The inputs are the outside world's: no register write changes them. -/
theorem inputs_of_writeReg (s : State) (v : Word) (r : Reg) : (writeReg s v r).inputs = s.inputs := by
  cases r with
  | ctrl =>
    simp only [writeReg]
    split
    · rfl
    · rfl
  | _ => rfl

theorem inputs_of_busWrite {s t : State} {off : Nat} {w : Width} {v : Word} {r : BusResponse}
    (h : busWrite s off w v = (t, r)) : t.inputs = s.inputs := by
  rcases busWrite_cases h with rfl | ⟨_, rfl⟩ | ⟨g, _, _, _, rfl⟩ | ⟨_, _, _, _, rfl⟩
  · rfl
  · rfl
  · exact inputs_of_writeReg s v g
  · rfl

/-- A step that leaves the command pending uses up an input, or a read of a `wait`. -/
theorem inputSteps_of_step_busy {s t : State} (h : step s = .next t) (hb : s.busy = true) (ht : t.busy = true) :
    inputSteps t.inputs < inputSteps s.inputs := by
  rcases step_next h with ⟨hidle, _⟩ | ⟨_, s', _, hc⟩ | ⟨rest, off, w, r, hhead, _, _, rfl⟩
    | ⟨rest, off, w, v, u, r, hi, hw, _, rfl⟩ | ⟨rest, _, rfl⟩
  · simp [hb] at hidle
  · simp [completion_not_busy hc] at ht
  · rcases hhead with hi | ⟨hidle, _⟩ | ⟨_, n, later, hi, rfl⟩
    · simp only [hi, inputSteps]
      omega
    · simp [hb] at hidle
    · simp only [hi, inputSteps]
      omega
  · have hu : u.inputs = rest := inputs_of_busWrite hw
    simp only [hi, hu, inputSteps]
    omega
  · simp [powerOnReset] at ht

/-- The run from `s` is over after `k` steps: no command is pending any more, or the run has faulted. -/
def endsAfter (k : Nat) (s : State) : Prop :=
  (∃ t, runsTo k s t ∧ t.busy = false) ∨ ∃ f, Host.Core.run Sys2Proof.core k s = .fault f

theorem endsAfter_zero {s : State} (hb : s.busy = false) : endsAfter 0 s :=
  .inl ⟨s, (runsTo_zero s s).mpr rfl, hb⟩

theorem endsAfter_of_fault {s : State} {f : Fault} (h : step s = .fault f) : endsAfter 1 s :=
  .inr ⟨f, run_of_fault h⟩

theorem endsAfter_succ {k : Nat} {s t : State} (h : step s = .next t) (ht : endsAfter k t) : endsAfter (k + 1) s := by
  simpa only [endsAfter, runsTo, run_of_next h] using ht

/-- Settles O7, by induction on the steps the inputs take: a step ends the command, faults, or leaves fewer of them. -/
theorem everyAcceptedCommandCompletes : Obligations.EveryAcceptedCommandCompletes := by
  intro s hb
  change ∃ k, k ≤ inputSteps s.inputs + 1 ∧ endsAfter k s
  induction hn : inputSteps s.inputs using Nat.strong_induction_on generalizing s with
  | _ n ih =>
    rcases hstep : step s with t | f | x
    · rcases ht : t.busy with _ | _
      · exact ⟨1, by omega, endsAfter_succ hstep (endsAfter_zero ht)⟩
      · have hlt : inputSteps t.inputs < n := hn ▸ inputSteps_of_step_busy hstep hb ht
        obtain ⟨k, hk, hend⟩ := ih _ hlt t ht rfl
        exact ⟨k + 1, by omega, endsAfter_succ hstep hend⟩
    · exact ⟨1, by omega, endsAfter_of_fault hstep⟩
    · exact absurd hstep (step_not_refused s x)

end Sys2Proof.Machine

/-! ## The permutation core and counter mode -/

namespace Sys2Proof.Machine

/-! ### The commands that write `STATE` alone (R83 to R86, R90) -/

theorem exec_init (s : State) :
    exec .init s = .next (complete .none { s with state := initState s.key s.counter s.nonce }) := rfl

theorem exec_dround (s : State) :
    exec .dround s = .next (complete .none { s with state := doubleRound s.state }) := rfl

theorem exec_permute (s : State) : exec .permute s = .next (complete .none { s with state := perm s.state }) := rfl

theorem exec_block (s : State) :
    exec .block s = .next (complete .none { s with state := perm (initState s.key s.counter s.nonce) }) := rfl

/-- Whatever these commands answer, `STATE` is all they write before the completion's last lines. -/
theorem exec_next_setState {i : Instr} {s t : State} (h : exec i s = .next t)
    (hi : i = .init ∨ i = .dround ∨ i = .permute ∨ i = .block ∨ ∃ a b c d, i = .qround a b c d) :
    ∃ e S, t = complete e { s with state := S } := by
  rcases exec_next h with ⟨e, _, rfl⟩ | ⟨u, hu, rfl⟩
  · exact ⟨e, s.state, rfl⟩
  · obtain rfl | rfl | rfl | rfl | ⟨a, b, c, d, rfl⟩ := hi
    · exact ⟨.none, _, congrArg _ hu⟩
    · exact ⟨.none, _, congrArg _ hu⟩
    · exact ⟨.none, _, congrArg _ hu⟩
    · exact ⟨.none, _, congrArg _ hu⟩
    · obtain ⟨_, rfl⟩ := hu
      exact ⟨.none, _, rfl⟩

/-- QROUND leaves every `STATE` word that it does not name, whether it performs its quarter-round or reports `E_ALIAS`. -/
theorem exec_qround_other {s t : State} {a b c d k : Fin 16} (h : exec (.qround a b c d) s = .next t) (ha : k ≠ a)
    (hb : k ≠ b) (hc : k ≠ c) (hd : k ≠ d) : t.state[k] = s.state[k] := by
  rcases exec_next h with ⟨e, _, rfl⟩ | ⟨u, ⟨_, rfl⟩, rfl⟩
  · rfl
  · exact quarterRoundAt_other s.state ha hb hc hd

/-- Settles O12: all but `STATE` is left by `complete`, and QROUND's other words by its quarter-round. -/
theorem frameOfStateCommands : Obligations.FrameOfStateCommands := by
  intro i s t h hi
  have hother : ∀ a b c d (k : Fin 16), i = .qround a b c d → k ≠ a → k ≠ b → k ≠ c → k ≠ d →
      t.state[k] = s.state[k] := by
    rintro a b c d k rfl
    exact exec_qround_other h
  obtain ⟨e, S, rfl⟩ := exec_next_setState h hi
  exact ⟨commandsLeave_complete (by simp [commandsLeave]) e, rfl, rfl, by simp [sameSession], fun _ => rfl, hother⟩

/-- Settles O15: INIT's state is `initState`, whose words are listed one by one. -/
theorem initLoadsConstantKeyCounterNonce : Obligations.InitLoadsConstantKeyCounterNonce := by
  intro s
  refine ⟨_, exec_init s, rfl, rfl, rfl, rfl, fun j => ?_, rfl, fun j => ?_, rfl⟩
  · fin_cases j <;> rfl
  · fin_cases j <;> rfl

/-- Settles O21: PERMUTE finds in `STATE` what INIT left there, and its completion writes the same fields over again. -/
theorem blockIsInitThenPermute : Obligations.BlockIsInitThenPermute := fun s =>
  ⟨_, _, exec_init s, exec_permute _, exec_block s⟩

/-! ### The quarter-round in place (R75, R77, R84) -/

/-- The quarter-round's twelve steps with `rotl32` as rotation (R10, R75). -/
theorem quarterRound_eq (a b c d : Word) :
    quarterRound a b c d =
      let a1 := a + b
      let d1 := (d ^^^ a1).rotateLeft 16
      let c1 := c + d1
      let b1 := (b ^^^ c1).rotateLeft 12
      let a2 := a1 + b1
      let d2 := (d1 ^^^ a2).rotateLeft 8
      let c2 := c1 + d2
      (a2, (b1 ^^^ c2).rotateLeft 7, c2, d2) := by
  simp [quarterRound, rotl32_eq]

/-- With pairwise distinct indices no result is written over, so each named word holds its own. -/
theorem quarterRoundAt_named (S : Vector Word 16) {a b c d : Fin 16} (h : pairwiseDistinct a b c d = true) :
    ((quarterRoundAt S a b c d)[a], (quarterRoundAt S a b c d)[b], (quarterRoundAt S a b c d)[c],
      (quarterRoundAt S a b c d)[d]) = quarterRound S[a] S[b] S[c] S[d] := by
  obtain ⟨hab, hac, had, hbc, hbd, hcd⟩ := (pairwiseDistinct_iff a b c d).mp h
  simp only [quarterRoundAt_getElem, if_neg hab, if_neg hac, if_neg had, if_neg hbc, if_neg hbd, if_neg hcd, if_true]

/-- Settles O16: the four named words are the components of `quarterRound`, which are the twelve steps. -/
theorem qroundPerformsTheQuarterRound : Obligations.QroundPerformsTheQuarterRound := by
  intro s a b c d hab hac had hbc hbd hcd a1 d1 c1 b1 a2 d2 c2 b2
  have hdistinct : pairwiseDistinct a b c d = true :=
    (pairwiseDistinct_iff a b c d).mpr ⟨hab, hac, had, hbc, hbd, hcd⟩
  have hwords := (quarterRoundAt_named s.state hdistinct).trans (quarterRound_eq ..)
  simp only [Prod.mk.injEq] at hwords
  obtain ⟨ha, hb, hc, hd⟩ := hwords
  exact ⟨_, exec_qround hdistinct, ha, hb, hc, hd, fun k => quarterRoundAt_other s.state, rfl⟩

/-- Settles O17: two equal indices are what `pairwiseDistinct` excludes. -/
theorem qroundWithEqualIndicesRaisesAlias : Obligations.QroundWithEqualIndicesRaisesAlias := by
  intro s a b c d heq
  have hd : pairwiseDistinct a b c d = false := by
    rw [← Bool.not_eq_true, pairwiseDistinct_iff]
    tauto
  exact exec_qround_aliased hd

/-- A word after a quarter-round in place depends on that word and the four the quarter-round names. -/
theorem quarterRoundAt_congr {S T : Vector Word 16} {a b c d k : Fin 16} (h : ∀ x ∈ [k, a, b, c, d], S[x] = T[x]) :
    (quarterRoundAt S a b c d)[k] = (quarterRoundAt T a b c d)[k] := by
  simp only [List.forall_mem_cons] at h
  obtain ⟨hk, ha, hb, hc, hd, _⟩ := h
  simp only [quarterRoundAt_getElem, hk, ha, hb, hc, hd]

/-- A word that the second quarter-round neither writes nor hands to the first is the same in either order. -/
theorem quarterRoundAt_comm_getElem (S : Vector Word 16) {a b c d e f g h k : Fin 16}
    (hdis : ∀ x ∈ [k, a, b, c, d], x ∉ [e, f, g, h]) :
    (quarterRoundAt (quarterRoundAt S a b c d) e f g h)[k] = (quarterRoundAt (quarterRoundAt S e f g h) a b c d)[k] := by
  have hother : ∀ T : Vector Word 16, ∀ x ∈ [k, a, b, c, d], (quarterRoundAt T e f g h)[x] = T[x] := by
    intro T x hx
    obtain ⟨he, hf, hg, hh⟩ : x ≠ e ∧ x ≠ f ∧ x ≠ g ∧ x ≠ h := by simpa using hdis x hx
    exact quarterRoundAt_other T he hf hg hh
  calc (quarterRoundAt (quarterRoundAt S a b c d) e f g h)[k]
      = (quarterRoundAt S a b c d)[k] := hother _ k (by simp)
    _ = (quarterRoundAt (quarterRoundAt S e f g h) a b c d)[k] := (quarterRoundAt_congr (hother S)).symm

/-- Settles O18: each word is outside one of the two groups, and the quarter-round on that group leaves it and the other
group's words alone. -/
theorem disjointQuarterRoundsCommute : Obligations.DisjointQuarterRoundsCommute := by
  intro S a b c d e f g h hnodup
  have hdis : [a, b, c, d].Disjoint [e, f, g, h] := List.disjoint_of_nodup_append hnodup
  refine Vector.ext fun n hn => ?_
  let k : Fin 16 := ⟨n, hn⟩
  by_cases hk : k ∈ [a, b, c, d]
  · exact quarterRoundAt_comm_getElem S (k := k) (List.forall_mem_cons.mpr ⟨hdis hk, fun _ hx => hdis hx⟩)
  · exact (quarterRoundAt_comm_getElem S (k := k) (List.forall_mem_cons.mpr ⟨hk, fun _ hx => hdis.symm hx⟩)).symm

/-! ### Double rounds (R76, R78) -/

/-- QROUND with pairwise distinct indices, told by the `STATE` it leaves. -/
theorem exec_qround_state (s : State) {a b c d : Fin 16} (h : pairwiseDistinct a b c d = true) :
    ∃ t, exec (.qround a b c d) s = .next t ∧ t.state = quarterRoundAt s.state a b c d :=
  ⟨_, exec_qround h, rfl⟩

/-- Settles O19: the indices of each group are distinct, so the QROUNDs run the quarter-rounds of `doubleRound`. -/
theorem droundIsEightQrounds : Obligations.DroundIsEightQrounds := by
  intro s
  obtain ⟨s1, h1, e1⟩ := exec_qround_state s (by decide : pairwiseDistinct 0 4 8 12 = true)
  obtain ⟨s2, h2, e2⟩ := exec_qround_state s1 (by decide : pairwiseDistinct 1 5 9 13 = true)
  obtain ⟨s3, h3, e3⟩ := exec_qround_state s2 (by decide : pairwiseDistinct 2 6 10 14 = true)
  obtain ⟨s4, h4, e4⟩ := exec_qround_state s3 (by decide : pairwiseDistinct 3 7 11 15 = true)
  obtain ⟨s5, h5, e5⟩ := exec_qround_state s4 (by decide : pairwiseDistinct 0 5 10 15 = true)
  obtain ⟨s6, h6, e6⟩ := exec_qround_state s5 (by decide : pairwiseDistinct 1 6 11 12 = true)
  obtain ⟨s7, h7, e7⟩ := exec_qround_state s6 (by decide : pairwiseDistinct 2 7 8 13 = true)
  obtain ⟨s8, h8, e8⟩ := exec_qround_state s7 (by decide : pairwiseDistinct 3 4 9 14 = true)
  have hstate : doubleRound s.state = s8.state := by
    rw [e8, e7, e6, e5, e4, e3, e2, e1, doubleRound, columnRound, diagonalRound]
  exact ⟨_, exec_dround s, ⟨s1, s2, s3, s4, s5, s6, s7, s8, h1, h2, h3, h4, h5, h6, h7, h8, hstate⟩, rfl⟩

/-- Each word of the permutation's output (R78). -/
theorem perm_getElem_toNat (S : Vector Word 16) (k : Fin 16) :
    (perm S)[k].toNat = ((doubleRound^[10] S)[k].toNat + S[k].toNat) % 2 ^ 32 := by
  rw [perm, addWords_getElem, doubleRounds_eq_iterate, BitVec.toNat_add]

/-- Settles O20: PERMUTE writes `perm`, whose words are these sums. -/
theorem permuteIsTenDoubleRoundsPlusOriginal : Obligations.PermuteIsTenDoubleRoundsPlusOriginal := fun s =>
  ⟨_, exec_permute s, perm_getElem_toNat s.state, rfl⟩

/-! ### XOR (R87, R91) -/

/-- XOR's output once its checks pass and every message byte is written. -/
theorem xorOutput_of_holds {s : State} {D : List Byte} (hsrc : inBuffer s s.src s.len)
    (hdst : inBuffer s s.dst s.len) (ho : ¬ overlapsPartly s.src s.dst s.len)
    (hc : counterStays s.counter.toNat s.len) (hl : D.length = s.len.toNat)
    (hD : holdsBytes s.mem s.src.toNat D) : xorOutput s = .ok (stream s.key s.nonce s.counter.toNat D) := by
  have hr := readMessage_of_holds hl hD
  rcases xorOutput_cases s with ⟨h, _⟩ | ⟨_, ⟨h, _⟩ | ⟨_, ⟨h, _⟩ | ⟨_, ⟨D', hD', hout⟩ | ⟨x, hx, _⟩⟩⟩⟩
  · exact absurd ⟨hsrc, hdst⟩ h
  · exact absurd h ho
  · exact absurd hc h
  · cases hr.symm.trans hD'
    exact hout
  · cases hr.symm.trans hx

theorem exec_xor_of_output {s : State} {out : List Byte} (h : xorOutput s = .ok out) :
    exec .xor s = .next (complete .none (storeOutput s out)) := by
  simp [exec, execXor, h]

/-- Settles O22: the output is `stream` of the message, written as one range from `DST` on. -/
theorem xorWritesMessageXorKeystream : Obligations.XorWritesMessageXorKeystream := by
  intro s D hsrc hdst ho hc hl hD
  refine ⟨_, exec_xor_of_output (xorOutput_of_holds hsrc hdst ho hc hl hD), fun j hj => ?_, fun a ha => ?_, rfl⟩
  · have hj' : j < (stream s.key s.nonce s.counter.toNat D).length := by simpa using hj
    rw [← stream_getElem _ _ _ _ j hj' hj]
    exact readByte_writeBytes_inside s.mem _ j _ hj'
  · exact readByte_writeBytes_outside s.mem _ a _ (by simpa [hl] using ha)

end Sys2Proof.Machine

/-! ## The rules of 41_stream.md: counter mode, XOR's checks, and the frame of the buffer commands -/

namespace Sys2Proof.Machine

/-- Settles O25: each byte is combined twice with the keystream byte of its own position, which cancels. -/
theorem streamIsItsOwnInverse : Obligations.StreamIsItsOwnInverse := by
  intro K N c D
  refine List.ext_getElem (by simp) fun j h hD => ?_
  have hS : j < (stream K N c D).length := by simpa using hD
  calc (stream K N c (stream K N c D))[j]
      = (stream K N c D)[j] ^^^ keystreamByte K N c j := stream_getElem K N c _ j h hS
    _ = D[j] ^^^ keystreamByte K N c j ^^^ keystreamByte K N c j := by rw [stream_getElem K N c D j hS hD]
    _ = D[j] := by rw [BitVec.xor_assoc, BitVec.xor_self, BitVec.xor_zero]

/-- XOR completes with the error its rule raises, and leaves the rest alone (R91, R113). -/
theorem exec_xor_of_raise {s : State} {e : ErrCode} (h : xorOutput s = .error (.raise e)) :
    exec .xor s = .next (complete e s) := by
  simp only [exec, execXor, h, finish_raise]

/-- Settles O23: by `xorOutput_cases` each outcome of the rule excludes the conditions of the other clauses. -/
theorem xorReportsItsFirstFailingCheck : Obligations.XorReportsItsFirstFailingCheck := by
  intro s
  rcases xorOutput_cases s with ⟨hr, hx⟩ | ⟨hr, ⟨ho, hx⟩ | ⟨ho, ⟨hc, hx⟩ | ⟨hc, _⟩⟩⟩
  · exact ⟨fun _ => exec_xor_of_raise hx, fun hs hd => absurd ⟨hs, hd⟩ hr, fun hs hd => absurd ⟨hs, hd⟩ hr⟩
  · exact ⟨absurd hr, fun _ _ _ => exec_xor_of_raise hx, fun _ _ => absurd ho⟩
  · exact ⟨absurd hr, fun _ _ h => absurd h ho, fun _ _ _ _ => exec_xor_of_raise hx⟩
  · exact ⟨absurd hr, fun _ _ h => absurd h ho, fun _ _ _ => absurd hc⟩

/-- A command's output, stored at `DST`, changes no byte outside the output range: it is `LEN` bytes long or empty. -/
theorem sameOutsideOutput_storeOutput {i : Instr} {s : State} {out : List Byte} (h : bufferOutput i s = .ok out) :
    sameOutsideOutput s (storeOutput s out) := by
  intro a ha
  rcases bufferOutput_ok h with rfl | ⟨hlen, _⟩
  · rfl
  · exact readByte_writeBytes_outside s.mem _ a out (by rwa [hlen])

/-- Whatever XOR, SEAL and OPEN answer, the buffer's output range and SEAL's `TAG` are all they write before the
completion's last lines. -/
theorem exec_next_setMemTag {i : Instr} {s t : State} (h : exec i s = .next t)
    (hi : i = .xor ∨ i = .aeadSeal ∨ i = .aeadOpen) :
    ∃ e m T, t = complete e { s with mem := m, tag := T } ∧ sameOutsideOutput s { s with mem := m }
      ∧ (i ≠ .aeadSeal → T = s.tag) := by
  rcases exec_next h with ⟨e, _, rfl⟩ | ⟨u, hu, rfl⟩
  · exact ⟨e, s.mem, s.tag, rfl, fun _ _ => rfl, fun _ => rfl⟩
  · rcases hi with rfl | rfl | rfl
    · obtain ⟨out, hout, rfl⟩ := hu
      exact ⟨.none, _, s.tag, rfl, sameOutsideOutput_storeOutput (i := .xor) hout, fun _ => rfl⟩
    · obtain ⟨ct, tag, hseal, rfl⟩ := hu
      have hout : bufferOutput .aeadSeal s = .ok ct := by simp only [bufferOutput, hseal]
      exact ⟨.none, _, tagWords tag, rfl, sameOutsideOutput_storeOutput hout, fun hne => absurd rfl hne⟩
    · obtain ⟨pt, hout, rfl⟩ := hu
      exact ⟨.none, _, s.tag, rfl, sameOutsideOutput_storeOutput (i := .aeadOpen) hout, fun _ => rfl⟩

/-- Settles O14: all but the buffer and `TAG` is left by `complete`, and these two by `exec_next_setMemTag`. -/
theorem frameOfBufferCommands : Obligations.FrameOfBufferCommands := by
  intro i s t h hi
  obtain ⟨e, m, T, rfl, hmem, htag⟩ := exec_next_setMemTag h hi
  exact ⟨commandsLeave_complete (by simp [commandsLeave]) e, rfl, rfl, by simp [sameSession], hmem, htag⟩

end Sys2Proof.Machine

/-! ## The rules of 42_authenticator.md: absorbing, and the commands of a session -/

namespace Sys2Proof.Machine

/-! ### Absorbing (R94) -/

/-- A block at the front, 16 bytes long or the last, is absorbed by one step. -/
theorem absorb_append_block (acc r : Nat) {b rest : List Byte} (hne : b ≠ []) (hle : b.length ≤ 16)
    (hblock : b.length = 16 ∨ rest = []) : absorb acc r (b ++ rest) = absorb (macStep r acc b) r rest := by
  obtain ⟨htake, hdrop⟩ : (b ++ rest).take 16 = b ∧ (b ++ rest).drop 16 = rest := by
    rcases hblock with h16 | rfl
    · exact ⟨List.take_left' h16, List.drop_left' h16⟩
    · simp [List.take_of_length_le hle, hle]
  rw [absorb_cons acc r (List.append_ne_nil_of_left_ne_nil hne rest), htake, hdrop]

/-- Settles O27: a step is the sum, product and reduction of R94 by `macStep_eq`. -/
theorem absorbStepsBlockByBlock : Obligations.AbsorbStepsBlockByBlock := by
  intro acc r
  refine ⟨absorb_nil acc r, fun b rest hpos hle hblock => ?_⟩
  rw [absorb_append_block acc r (List.ne_nil_of_length_pos hpos) hle hblock, macStep_eq]

/-- Settles O28, by induction over the blocks of the first part, all of which are whole. -/
theorem absorbInPartsIsAbsorbWhole : Obligations.AbsorbInPartsIsAbsorbWhole := by
  intro acc r a b hlen
  induction a using chunk_induction (n := 16) (by omega) generalizing acc with
  | nil => simp
  | cons a ha ih =>
    have h16 : 16 ≤ a.length := by
      have := List.length_pos_iff.mpr ha
      omega
    have hrest : (a.drop 16).length % 16 = 0 := by
      rw [List.length_drop]
      omega
    rw [absorb_cons acc r ha, ih _ hrest, absorb_cons acc r (List.append_ne_nil_of_left_ne_nil ha b),
      List.take_append_of_le_length h16, List.drop_append_of_le_length h16]

/-! ### Register groups as integers and bits (R11, R33, R97) -/

theorem leInt_groupBytes_cons (w : Word) (ws : List Word) :
    leInt (groupBytes (w :: ws)) = w.toNat + 2 ^ 32 * leInt (groupBytes ws) := by
  rw [groupBytes_cons, leInt_append, leInt_wordBytes, wordBytes_length]
  norm_num

/-- The four words written to `TAG` hold a tag's integer, least significant word first. -/
theorem leInt_eq_tagWords {t : List Byte} (h : t.length = 16) :
    (tagWords t)[0].toNat + 2 ^ 32 * (tagWords t)[1].toNat + 2 ^ 64 * (tagWords t)[2].toNat
      + 2 ^ 96 * (tagWords t)[3].toNat = leInt t := by
  have hwords : (tagWords t).toList = [(tagWords t)[0], (tagWords t)[1], (tagWords t)[2], (tagWords t)[3]] := rfl
  rw [← congrArg leInt (groupBytes_tagWords t h), hwords]
  simp only [leInt_groupBytes_cons, groupBytes_nil, leInt_nil]
  omega

/-- `FINISH` is the sum modulo 2^128 (R95). -/
theorem leInt_finishTag (acc s : Nat) : leInt (finishTag acc s) = (acc + s) % 2 ^ 128 :=
  leInt_leBytes 16 (acc + s)

/-- Bit `j` of the sixteen bytes that `MACKEY` holds from its word `k` on is bit `j mod 32` of word `k + j / 32`. -/
theorem testBit_leInt_mackeyBytes (s : State) {k : Nat} (hk : k ≤ 4) (j : Fin 128) :
    (leInt (((mackeyBytes s).drop (4 * k)).take 16)).testBit j.val
      = (s.mackey[k + j.val / 32]).getLsbD (j.val % 32) := by
  have hword : (4 * k + j.val / 8) / 4 = k + j.val / 32 := by omega
  have hbit : 8 * ((4 * k + j.val / 8) % 4) + j.val % 8 = j.val % 32 := by omega
  have hlt : j.val % 8 < 8 := by omega
  rw [testBit_leInt _ _ (by simp; omega)]
  simp only [List.getElem_take, List.getElem_drop, mackeyBytes, groupBytes_getElem, hword, Vector.getElem_toList,
    BitVec.getLsbD_extractLsb', hbit, hlt, decide_true, Bool.true_and]

theorem keyR_mackeyBytes_getLsbD (s : State) (j : Fin 128) :
    (keyR (mackeyBytes s)).getLsbD j.val = ((s.mackey[j.val / 32]).getLsbD (j.val % 32) && !clampedBit j.val) := by
  have hbit := testBit_leInt_mackeyBytes s (k := 0) (by omega) j
  simp only [Nat.mul_zero, List.drop_zero, Nat.zero_add] at hbit
  rw [keyR, clamp_getLsbD, BitVec.getLsbD_ofNat, hbit, decide_eq_true j.isLt, Bool.true_and]

theorem keyS_mackeyBytes_getLsbD (s : State) (j : Fin 128) :
    (keyS (mackeyBytes s)).getLsbD j.val = (s.mackey[4 + j.val / 32]).getLsbD (j.val % 32) := by
  rw [keyS, BitVec.getLsbD_ofNat, testBit_leInt_mackeyBytes s (k := 4) (by omega) j, decide_eq_true j.isLt,
    Bool.true_and]

/-! ### The commands of a session (R98 to R101) -/

theorem exec_macInit (s : State) :
    exec .macInit s =
      .next (complete .none { s with macR := keyR (mackeyBytes s), macS := keyS (mackeyBytes s), macAcc := 0#130,
                                     macActive := true }) := rfl

theorem exec_macFinal {s : State} (ha : s.macActive = true) :
    exec .macFinal s =
      .next (complete .none { s with tag := tagWords (finishTag s.macAcc.toNat s.macS.toNat), macR := 0#128,
                                     macS := 0#128, macAcc := 0#130, macActive := false }) := by
  simp [exec, execMacFinal, ha]

/-- MAC_UPDATE looks at the session before its range (R118). -/
theorem exec_macUpdate_of_closed {s : State} (ha : s.macActive = false) :
    exec .macUpdate s = .next (complete .macState s) := by
  simp [exec, execMacUpdate, ha]

theorem exec_macFinal_of_closed {s : State} (ha : s.macActive = false) :
    exec .macFinal s = .next (complete .macState s) := by
  simp [exec, execMacFinal, ha]

theorem rangeOk_eq_false {s : State} {a n : Word} (hb : ¬ inBuffer s a n) : rangeOk s.cfg a n = false := by
  rwa [← Bool.not_eq_true, rangeOk_iff]

/-- Settles O30: each check raises its error before anything behind it is looked at. -/
theorem macCommandsReportTheirFirstFailingCheck : Obligations.MacCommandsReportTheirFirstFailingCheck := by
  intro s
  refine ⟨exec_macUpdate_of_closed, exec_macFinal_of_closed, fun ha hb => ?_, fun hb => ?_⟩
  · simp [exec, execMacUpdate, ha, rangeOk_eq_false hb]
  · simp [exec, execMac, rangeOk_eq_false hb]

/-- Settles O26: the two halves of the key are the register bits, of which the multiplier's are clamped. -/
theorem macInitOpensAClampedSession : Obligations.MacInitOpensAClampedSession := fun s =>
  ⟨_, exec_macInit s, rfl, rfl, fun j => ⟨keyR_mackeyBytes_getLsbD s j, keyS_mackeyBytes_getLsbD s j⟩, rfl⟩

/-- Settles O29: the 130-bit accumulator loses nothing of what absorbing gives, by `absorb_toNat`. -/
theorem macUpdateAbsorbsItsMessage : Obligations.MacUpdateAbsorbsItsMessage := by
  intro s D ha hb hlen hD
  have hacc := absorb_toNat s.macAcc s.macR.toNat D
  refine ⟨_, exec_macUpdate ha hb (readMessage_of_holds hlen hD), hacc, fun hne => ?_, rfl⟩
  exact hacc.trans_lt (absorb_lt _ (.inl hne))

/-- Settles O31: `TAG`'s words hold the integer of `FINISH`. -/
theorem macFinalWritesTagAndClosesSession : Obligations.MacFinalWritesTagAndClosesSession := by
  intro s ha
  refine ⟨_, exec_macFinal ha, ?_, rfl⟩
  calc _ = leInt (finishTag s.macAcc.toNat s.macS.toNat) := leInt_eq_tagWords (finishTag_length _ _)
    _ = _ := leInt_finishTag _ _

/-- Settles O32: the session absorbs from accumulator 0 with the halves of the key, and finishes, as `POLY` does. -/
theorem macEqualsInitUpdateFinal : Obligations.MacEqualsInitUpdateFinal := by
  intro s D hb hlen hD
  have hread := readMessage_of_holds hlen hD
  refine ⟨_, _, _, _, exec_mac hb hread, exec_macInit s, exec_macUpdate rfl hb hread, exec_macFinal rfl, rfl, ?_, rfl⟩
  have hacc : (BitVec.ofNat 130 (absorb (0#130).toNat (keyR (mackeyBytes s)).toNat D)).toNat
      = absorb 0 (keyR (mackeyBytes s)).toNat D := absorb_toNat 0#130 _ D
  simp only [complete_tag, complete_macAcc, complete_macR, complete_macS, hacc, poly]

/-! ### The frame of the MAC commands and KEYGEN (R69) -/

/-- Settles O13: an error completion leaves all of this, and each command's effect names the fields it writes. -/
theorem frameOfMacAndKeyCommands : Obligations.FrameOfMacAndKeyCommands := by
  intro i s t h hi
  rcases exec_next h with ⟨e, _, rfl⟩ | ⟨u, hu, rfl⟩
  · have hleave := commandsLeave_complete (s := s) (u := s) (by simp [commandsLeave]) e
    simp [hleave, sameBuffer, sameSession]
  · have hleave := commandsLeave_complete (commandsLeave_of_commandEffect hu) .none
    rcases hi with rfl | rfl | rfl | rfl | rfl
    · obtain rfl := hu
      simp [hleave, sameBuffer]
    · obtain ⟨_, _, D, _, rfl⟩ := hu
      simp [hleave, sameBuffer]
    · obtain ⟨_, rfl⟩ := hu
      simp [hleave, sameBuffer]
    · obtain ⟨_, D, _, rfl⟩ := hu
      simp [hleave, sameBuffer, sameSession]
    · obtain rfl := hu
      simp [hleave, sameBuffer, sameSession]

end Sys2Proof.Machine

/-! ## The rules of 43_aead.md: the tag's framing, the one-time key, and sealing and opening -/

namespace Sys2Proof.Machine

/-! ### Framing (R103) -/

@[simp] theorem pad16_length (n : Nat) : (pad16 n).length = (16 - n % 16) % 16 := List.length_replicate

/-- Settles O34: the paddings are those of `pad16`, and the two lengths take the last 16 bytes. -/
theorem frameIsPaddedDataAndLengths : Obligations.FrameIsPaddedDataAndLengths := by
  intro aad ct
  have hlen : (frame aad ct).length
      = aad.length + (16 - aad.length % 16) % 16 + ct.length + (16 - ct.length % 16) % 16 + 8 + 8 := by
    simp [frame, Nat.add_assoc]
  exact ⟨(16 - aad.length % 16) % 16, (16 - ct.length % 16) % 16, by omega, by omega, by omega, by omega, rfl,
    by omega, by omega⟩

/-! ### KEYGEN (R102, R109) -/

theorem groupBytes_take (ws : List Word) (n : Nat) : groupBytes (ws.take n) = (groupBytes ws).take (4 * n) := by
  induction n generalizing ws with
  | zero => simp
  | succ n ih =>
    cases ws with
    | nil => simp
    | cons w ws =>
      have hlen : 4 * (n + 1) = (wordBytes w).length + 4 * n := by rw [wordBytes_length]; omega
      rw [List.take_succ_cons, groupBytes_cons, groupBytes_cons, hlen, List.take_length_add_append, ih]

/-- The one-time key is the bytes of the first eight words of the block at counter 0. -/
theorem oneTimeKey_eq_groupBytes (K : Vector Word 8) (N : Vector Word 3) :
    oneTimeKey K N = groupBytes ((perm (initState K 0#32 N)).toList.take 8) :=
  (groupBytes_take _ 8).symm

theorem exec_keygen (s : State) :
    let S := perm (initState s.key 0#32 s.nonce)
    exec .keygen s =
      .next (complete .none { s with mackey := #v[S[0], S[1], S[2], S[3], S[4], S[5], S[6], S[7]] }) := rfl

/-- The eight words KEYGEN picks from a state are its first eight. -/
theorem firstEight_getElem (S : Vector Word 16) (j : Fin 8) :
    #v[S[0], S[1], S[2], S[3], S[4], S[5], S[6], S[7]][j] = S[j.val] := by
  fin_cases j <;> rfl

theorem firstEight_toList (S : Vector Word 16) :
    #v[S[0], S[1], S[2], S[3], S[4], S[5], S[6], S[7]].toList = S.toList.take 8 := by
  refine List.ext_getElem (by simp) fun j hj _ => ?_
  have hj8 : j < 8 := by simpa using hj
  rw [Vector.getElem_toList, List.getElem_take, Vector.getElem_toList]
  exact firstEight_getElem S ⟨j, hj8⟩

/-- Settles O33: KEYGEN's eight words are the first of the block that BLOCK computes at counter 0, and the one-time key is
their bytes. -/
theorem keygenWritesFirstWordsOfBlockZero : Obligations.KeygenWritesFirstWordsOfBlockZero := fun s =>
  ⟨_, _, exec_keygen s, exec_block _, firstEight_getElem _,
    by rw [oneTimeKey_eq_groupBytes, ← firstEight_toList]; rfl, rfl⟩

/-! ### Opening as a function (R105, R107) -/

theorem openF_of_tag_eq {K : Vector Word 8} {N : Vector Word 3} {ct tag aad : List Byte}
    (h : tag = aeadTag K N aad ct) : openF K N ct tag aad = some (stream K N 1 ct) := by
  subst h
  exact if_pos ((ctEqualIsEquality _ _ (aeadTag_length ..) (aeadTag_length ..)).mpr rfl)

theorem openF_of_tag_ne {K : Vector Word 8} {N : Vector Word 3} {ct tag aad : List Byte} (hl : tag.length = 16)
    (h : tag ≠ aeadTag K N aad ct) : openF K N ct tag aad = none :=
  if_neg fun heq => h ((ctEqualIsEquality _ _ (aeadTag_length ..) hl).mp heq).symm

/-- Settles O36: the tag that was made is the one recomputed, and counter mode is its own inverse. -/
theorem openOfSealIsThePlaintext : Obligations.OpenOfSealIsThePlaintext := by
  intro K N pt aad
  calc openF K N (sealF K N pt aad).1 (sealF K N pt aad).2 aad
      = some (stream K N 1 (stream K N 1 pt)) := openF_of_tag_eq rfl
    _ = some pt := by rw [streamIsItsOwnInverse]

/-! ### The completions of SEAL and OPEN (R110, R111) -/

/-- Both commands complete with the error their shared checks raise, and leave the rest alone. -/
theorem exec_aead_of_raise {i : Instr} {s : State} {e : ErrCode} (hi : i = .aeadSeal ∨ i = .aeadOpen)
    (h : aeadOperands s = .error (.raise e)) : exec i s = .next (complete e s) := by
  rcases hi with rfl | rfl
  · simp only [exec, execSeal, sealOutput, h, finish_raise]
  · simp only [exec, execOpen, openOutput, h, finish_raise]

theorem exec_aeadSeal_of_operands {s : State} {P A : List Byte} (h : aeadOperands s = .ok (P, A)) :
    exec .aeadSeal s =
      .next (complete .none { storeOutput s (stream s.key s.nonce 1 P) with
        tag := tagWords (aeadTag s.key s.nonce A (stream s.key s.nonce 1 P)) }) := by
  simp only [exec, execSeal, sealOutput, h, sealF, finish_ok]

theorem exec_aeadOpen_of_tag_eq {s : State} {C A : List Byte} (h : aeadOperands s = .ok (C, A))
    (ht : tagBytes s = aeadTag s.key s.nonce A C) :
    exec .aeadOpen s = .next (complete .none (storeOutput s (stream s.key s.nonce 1 C))) := by
  simp only [exec, execOpen, openOutput, h, openF_of_tag_eq ht, finish_ok]

theorem exec_aeadOpen_of_tag_ne {s : State} {C A : List Byte} (h : aeadOperands s = .ok (C, A))
    (ht : tagBytes s ≠ aeadTag s.key s.nonce A C) : exec .aeadOpen s = .next (complete .auth s) := by
  simp only [exec, execOpen, openOutput, h, openF_of_tag_ne (tagBytes_length s) ht, finish_raise]

/-- The output stands at `DST`. -/
theorem holdsBytes_storeOutput (s : State) (out : List Byte) : holdsBytes (storeOutput s out).mem s.dst.toNat out :=
  holdsBytes_writeBytes _ _ _

/-- Settles O40: by `aeadOperands_cases` each outcome of the checks excludes the conditions of the other clause. -/
theorem sealAndOpenReportTheirFirstFailingCheck : Obligations.SealAndOpenReportTheirFirstFailingCheck := by
  intro i s hi
  rcases aeadOperands_cases s with ⟨hb, hx⟩ | ⟨hb, ⟨ho, hx⟩ | ⟨ho, _⟩⟩
  · exact ⟨fun _ => exec_aead_of_raise hi hx, fun h => absurd h hb⟩
  · exact ⟨absurd hb, fun _ _ => exec_aead_of_raise hi hx⟩
  · exact ⟨absurd hb, fun _ h => absurd h ho⟩

/-- Settles O37: the ciphertext is `stream` of the message, and `TAG`'s words hold the tag's bytes. -/
theorem sealWritesCiphertextAndTag : Obligations.SealWritesCiphertextAndTag := by
  intro s P A C hb ho hPlen hP hAlen hA hC
  obtain rfl := eq_stream_of_isStreamOf hC
  have hexec := exec_aeadSeal_of_operands (aeadOperands_of_holds hb ho (counterStays_one _) hPlen hP hAlen hA)
  obtain ⟨_, _, _, _, hframe, _⟩ := frameOfBufferCommands _ _ _ hexec (.inr (.inl rfl))
  exact ⟨_, hexec, holdsBytes_storeOutput s _, hframe, groupBytes_tagWords _ (aeadTag_length ..), rfl⟩

/-- Settles O38: the plaintext is `stream` of the ciphertext. -/
theorem openWithMatchingTagWritesPlaintext : Obligations.OpenWithMatchingTagWritesPlaintext := by
  intro s C A P hb ho hClen hC hAlen hA hP htag
  obtain rfl := eq_stream_of_isStreamOf hP
  have hexec := exec_aeadOpen_of_tag_eq (aeadOperands_of_holds hb ho (counterStays_one _) hClen hC hAlen hA) htag
  obtain ⟨_, _, _, _, hframe, _⟩ := frameOfBufferCommands _ _ _ hexec (.inr (.inr rfl))
  exact ⟨_, hexec, holdsBytes_storeOutput s _, hframe, rfl⟩

/-- Settles O39: OPEN takes the error completion before it writes anything. -/
theorem openWithWrongTagFailsClosed : Obligations.OpenWithWrongTagFailsClosed := by
  intro s C A hb ho hClen hC hAlen hA htag
  exact exec_aeadOpen_of_tag_ne (aeadOperands_of_holds hb ho (counterStays_one _) hClen hC hAlen hA) htag

/-! ### OPEN after SEAL (R107) -/

/-- Writing a range leaves what a range it does not meet holds. -/
theorem holdsBytes_writeBytes_of_disjoint {m : Memory} {a x : Nat} {D bs : List Byte} (h : holdsBytes m a D)
    (hx : bs.length = 0 ∨ D.length = 0 ∨ a + D.length ≤ x ∨ x + bs.length ≤ a) :
    holdsBytes (writeBytes m x bs) a D := by
  intro j hj
  rw [readByte_writeBytes_outside _ _ _ _ (by omega)]
  exact h j hj

/-- SEAL's checks keep its output off the associated data (R117), so that survives. -/
theorem holdsBytes_aad_storeOutput {s : State} {A out : List Byte} (ho : ¬ aeadOverlaps s)
    (hout : out.length = s.len.toNat) (hAlen : A.length = s.aadlen.toNat) (hA : holdsBytes s.mem s.aad.toNat A) :
    holdsBytes (storeOutput s out).mem s.aad.toNat A := by
  refine holdsBytes_writeBytes_of_disjoint hA ?_
  by_contra hmeet
  exact ho (.inr ⟨by omega, by omega, by omega, by omega⟩)

/-- Settles O41: OPEN finds the ciphertext where SEAL wrote it, the associated data untouched, and in `TAG` the tag of the
two, so it takes counter mode back. -/
theorem openAfterSealRestoresThePlaintext : Obligations.OpenAfterSealRestoresThePlaintext := by
  intro s t P A d hPlen hP hAlen hA hexec hcode u hb ho
  rcases exec_next hexec with ⟨e, he, rfl⟩ | ⟨_, ⟨ct, tag, hseal, rfl⟩, rfl⟩
  · exact absurd hcode he
  obtain ⟨_, hsep, _, P', A', hP', hA', rfl, rfl⟩ := sealOutput_ok hseal
  cases (readMessage_of_holds hPlen hP).symm.trans hP'
  cases (readMessage_of_holds hAlen hA).symm.trans hA'
  have hlen : (stream s.key s.nonce 1 P).length = s.len.toNat := (stream_length ..).trans hPlen
  have hoperands : aeadOperands u = .ok (stream s.key s.nonce 1 P, A) :=
    aeadOperands_of_holds hb ho (counterStays_one _) hlen (holdsBytes_storeOutput s _) hAlen
      (holdsBytes_aad_storeOutput hsep hlen hAlen hA)
  have htag : tagBytes u = aeadTag s.key s.nonce A (stream s.key s.nonce 1 P) :=
    groupBytes_tagWords _ (aeadTag_length ..)
  have hopen : holdsBytes (storeOutput u (stream s.key s.nonce 1 (stream s.key s.nonce 1 P))).mem d.toNat P := by
    rw [streamIsItsOwnInverse]
    exact holdsBytes_storeOutput u P
  exact ⟨_, exec_aeadOpen_of_tag_eq hoperands htag, rfl, rfl, hopen⟩

end Sys2Proof.Machine

/-! ## The rules of 60_exceptions.md: which command reports which error -/

namespace Sys2Proof.Machine

/-! ### The codes each command can report (R112) -/

/-- The code a completion leaves is the one it was taken with. -/
theorem errcode_of_exec_eq {i : Instr} {s t u : State} {e : ErrCode} (hexec : exec i s = .next (complete e u))
    (h : exec i s = .next t) : t.errcode = e := by
  obtain rfl : complete e u = t := Host.Outcome.next.inj (hexec.symm.trans h)
  rfl

section ErrorCodes

variable {s t : State} (he : t.errcode ≠ .none)
include he

/-- Two equal indices are QROUND's only error (R84). -/
theorem errcode_of_exec_qround {a b c d : Fin 16} (h : exec (.qround a b c d) s = .next t) : t.errcode = .aliased := by
  cases hd : pairwiseDistinct a b c d with
  | true => exact absurd (errcode_of_exec_eq (exec_qround hd) h) he
  | false => exact errcode_of_exec_eq (exec_qround_aliased hd) h

/-- A closed session is MAC_FINAL's only error (R100). -/
theorem errcode_of_exec_macFinal (h : exec .macFinal s = .next t) : t.errcode = .macState := by
  cases ha : s.macActive with
  | true => exact absurd (errcode_of_exec_eq (exec_macFinal ha) h) he
  | false => exact errcode_of_exec_eq (exec_macFinal_of_closed ha) h

/-- MAC_UPDATE checks its session and its range, and reading the message reports no code (R99). -/
theorem errcode_of_exec_macUpdate (h : exec .macUpdate s = .next t) : t.errcode = .macState ∨ t.errcode = .range := by
  obtain ⟨hclosed, _, hrange, _⟩ := macCommandsReportTheirFirstFailingCheck s
  cases ha : s.macActive with
  | false => exact .inl (errcode_of_exec_eq (hclosed ha) h)
  | true =>
    by_cases hb : inBuffer s s.src s.len
    · rcases readMessage_cases s s.src s.len with ⟨D, hD, _⟩ | ⟨x, hx⟩
      · exact absurd (errcode_of_exec_eq (exec_macUpdate ha hb hD) h) he
      · cases (exec_macUpdate_of_unwritten hx ha hb).symm.trans h
    · exact .inr (errcode_of_exec_eq (hrange ha hb) h)

/-- MAC checks its range, and reading the message reports no code (R101). -/
theorem errcode_of_exec_mac (h : exec .mac s = .next t) : t.errcode = .range := by
  obtain ⟨_, _, _, hrange⟩ := macCommandsReportTheirFirstFailingCheck s
  by_cases hb : inBuffer s s.src s.len
  · rcases readMessage_cases s s.src s.len with ⟨D, hD, _⟩ | ⟨x, hx⟩
    · exact absurd (errcode_of_exec_eq (exec_mac hb hD) h) he
    · cases (exec_mac_of_unwritten hx hb).symm.trans h
  · exact errcode_of_exec_eq (hrange hb) h

/-- XOR's errors are those of its three checks (R91). -/
theorem errcode_of_exec_xor (h : exec .xor s = .next t) :
    t.errcode = .range ∨ t.errcode = .overlap ∨ t.errcode = .counter := by
  rcases xorOutput_cases s with ⟨_, hx⟩ | ⟨_, ⟨_, hx⟩ | ⟨_, ⟨_, hx⟩ | ⟨_, ⟨D, _, hx⟩ | ⟨x, _, hx⟩⟩⟩⟩
  · exact .inl (errcode_of_exec_eq (exec_xor_of_raise hx) h)
  · exact .inr (.inl (errcode_of_exec_eq (exec_xor_of_raise hx) h))
  · exact .inr (.inr (errcode_of_exec_eq (exec_xor_of_raise hx) h))
  · exact absurd (errcode_of_exec_eq (exec_xor_of_output hx) h) he
  · cases (exec_of_bufferOutput_unwritten (i := .xor) (.inl rfl) hx).symm.trans h

/-- With operands that pass the checks SEAL always succeeds, and OPEN can fail on the tag alone (R110, R111). -/
theorem errcode_of_exec_aead_of_operands {i : Instr} {M A : List Byte} (hi : i = .aeadSeal ∨ i = .aeadOpen)
    (ho : aeadOperands s = .ok (M, A)) (h : exec i s = .next t) : t.errcode = .auth ∧ i = .aeadOpen := by
  rcases hi with rfl | rfl
  · exact absurd (errcode_of_exec_eq (exec_aeadSeal_of_operands ho) h) he
  · by_cases htag : tagBytes s = aeadTag s.key s.nonce A M
    · exact absurd (errcode_of_exec_eq (exec_aeadOpen_of_tag_eq ho htag) h) he
    · exact ⟨errcode_of_exec_eq (exec_aeadOpen_of_tag_ne ho htag) h, rfl⟩

/-- The errors of SEAL and OPEN. Their counter starts at 1, so that `counterStays_one` rules `E_COUNTER` out (R112). -/
theorem errcode_of_exec_aead {i : Instr} (hi : i = .aeadSeal ∨ i = .aeadOpen) (h : exec i s = .next t) :
    t.errcode = .range ∨ t.errcode = .overlap ∨ (t.errcode = .auth ∧ i = .aeadOpen) := by
  rcases aeadOperands_cases s with ⟨_, hx⟩ | ⟨_, ⟨_, hx⟩ | ⟨_, ⟨hc, _⟩ | ⟨_, ⟨M, A, _, _, hx⟩ | ⟨x, _, hx⟩⟩⟩⟩
  · exact .inl (errcode_of_exec_eq (exec_aead_of_raise hi hx) h)
  · exact .inr (.inl (errcode_of_exec_eq (exec_aead_of_raise hi hx) h))
  · exact absurd (counterStays_one _) hc
  · exact .inr (.inr (errcode_of_exec_aead_of_operands he hi hx h))
  · obtain ⟨hseal, hopen⟩ := exec_aead_of_unwritten hx
    rcases hi with rfl | rfl
    · cases hseal.symm.trans h
    · cases hopen.symm.trans h

end ErrorCodes

/-- Settles O11: the commands without a check report no error, and the lemmas above give the codes of the others. -/
theorem eachCommandRaisesOnlyItsErrors : Obligations.EachCommandRaisesOnlyItsErrors := by
  intro i s t h he
  cases i with
  | init => exact absurd (errcode_of_exec_eq (exec_init s) h) he
  | dround => exact absurd (errcode_of_exec_eq (exec_dround s) h) he
  | permute => exact absurd (errcode_of_exec_eq (exec_permute s) h) he
  | block => exact absurd (errcode_of_exec_eq (exec_block s) h) he
  | macInit => exact absurd (errcode_of_exec_eq (exec_macInit s) h) he
  | keygen => exact absurd (errcode_of_exec_eq (exec_keygen s) h) he
  | qround a b c d => simp [errcode_of_exec_qround he h]
  | macFinal => simp [errcode_of_exec_macFinal he h]
  | mac => simp [errcode_of_exec_mac he h]
  | macUpdate => rcases errcode_of_exec_macUpdate he h with hcode | hcode <;> simp [hcode]
  | xor => rcases errcode_of_exec_xor he h with hcode | hcode | hcode <;> simp [hcode]
  | aeadSeal =>
    rcases errcode_of_exec_aead he (.inl rfl) h with hcode | hcode | ⟨_, hopen⟩
    · simp [hcode]
    · simp [hcode]
    · cases hopen
  | aeadOpen => rcases errcode_of_exec_aead he (.inr rfl) h with hcode | hcode | ⟨hcode, _⟩ <;> simp [hcode]

end Sys2Proof.Machine

/-! ## The rules of 70_reset_and_hazards.md: latency and secret data -/

namespace Sys2Proof.Machine

/-! ### The latency of a command that completes (R143) -/

/-- The latency of a command whose completion carries code `e`: of its results, only the code counts (R143). -/
theorem completionLatency_of_exec_eq {i : Instr} {e : ErrCode} {s u : State} (hdecode : decode s.cmdWord = .ok i)
    (hexec : exec i s = .next (complete e u)) :
    completionLatency s = Config.latency s.cmdWord s.len s.aadlen (failingCheck e) (e != .auth) := by
  simp only [completionLatency, completion_of_decode_ok hdecode, hexec, complete_errcode]

/-- Each of the seven commands completes from every state, with a code that its word alone determines: QROUND's check is of
its indices (R84), and the others have none. -/
theorem exists_errcode_forall_exec_eq {i : Instr}
    (hi : i = .init ∨ i = .dround ∨ i = .permute ∨ i = .block ∨ i = .keygen ∨ i = .macInit
      ∨ ∃ a b c d, i = .qround a b c d) :
    ∃ e, ∀ s, ∃ u, exec i s = .next (complete e u) := by
  rcases hi with rfl | rfl | rfl | rfl | rfl | rfl | ⟨a, b, c, d, rfl⟩
  · exact ⟨.none, fun s => ⟨_, exec_init s⟩⟩
  · exact ⟨.none, fun s => ⟨_, exec_dround s⟩⟩
  · exact ⟨.none, fun s => ⟨_, exec_permute s⟩⟩
  · exact ⟨.none, fun s => ⟨_, exec_block s⟩⟩
  · exact ⟨.none, fun s => ⟨_, exec_keygen s⟩⟩
  · exact ⟨.none, fun s => ⟨_, exec_macInit s⟩⟩
  · cases hdistinct : pairwiseDistinct a b c d with
    | true => exact ⟨.none, fun _ => ⟨_, exec_qround hdistinct⟩⟩
    | false => exact ⟨.aliased, fun _ => ⟨_, exec_qround_aliased hdistinct⟩⟩

/-- Settles O60: both states complete with the code of their common word, so the latency has the same arguments. -/
theorem latencyIgnoresSecretData : Obligations.LatencyIgnoresSecretData := by
  intro s t i hdecode hi hword hlen haadlen
  obtain ⟨e, hcompletes⟩ := exists_errcode_forall_exec_eq hi
  obtain ⟨u, hs⟩ := hcompletes s
  obtain ⟨v, ht⟩ := hcompletes t
  have hdecode' : decode t.cmdWord = .ok i := hword ▸ hdecode
  rw [completionLatency_of_exec_eq hdecode hs, completionLatency_of_exec_eq hdecode' ht, hword, hlen, haadlen]

end Sys2Proof.Machine
